-- ==== Sys2Proof/Word.lean ====
section
/-! DEFINITION. The word types of the CG100 image codec block (00_scope.md R8). -/

namespace Sys2Proof

/-- A byte of the OUT space, and a colour component (00_scope.md R7, R8). -/
abbrev Byte := BitVec 8

/-- A 16-bit unsigned value: WIDTH, HEIGHT, PAL_LEN and an RGB565 colour (00_scope.md R7). -/
abbrev Half := BitVec 16

/-- A 32-bit word: a CSR word, a command word, an OUT address (00_scope.md R7, 30_encoding.md R70). -/
abbrev Word := BitVec 32

end Sys2Proof
end

