-- ==== Sys2Proof/Syntax.lean ====
section
/-! DEFINITION. The four commands of the block (30_encoding.md R71). -/

namespace Sys2Proof

/-- A command. No command word carries an operand (30_encoding.md R73): every operand is read from the state. -/
inductive Instr where
  /-- Build the image header (40_header_builder.md R100). -/
  | bldhdr
  /-- Reduce the palette (41_palette_reducer.md R111). -/
  | redpal
  /-- Pack the pixels (42_pixel_packer.md R122). -/
  | packpx
  /-- Encode the image (43_image_encoder.md R135). -/
  | encode
deriving DecidableEq, Repr

end Sys2Proof
end

