-- ==== Sys2Proof/WellFormed.lean ====
section
/-! DEFINITION. Which commands and which command words are well formed (30_encoding.md R70 to R72). -/

namespace Sys2Proof

/-- Every command is well formed: it has no operand that could be out of range (30_encoding.md R73). -/
def wfInstr (i : Instr) : Bool :=
  match i with
  | .bldhdr => true
  | .redpal => true
  | .packpx => true
  | .encode => true

/-- The `zero` field of a command word, bits 31:8, holds 0 (30_encoding.md R70). -/
def wfZeroField (w : Word) : Bool := w.extractLsb' 8 24 == 0#24

/-- The `op` field of a command word, bits 7:0, holds one of the four operation codes (30_encoding.md R71). -/
def wfOpField (w : Word) : Bool := 1#8 ≤ w.extractLsb' 0 8 && w.extractLsb' 0 8 ≤ 4#8

/-- A command word that is not reserved (30_encoding.md R72). -/
def wfCommandWord (w : Word) : Bool := wfZeroField w && wfOpField w

end Sys2Proof
end

