-- ==== Sys2Proof/Decode.lean ====
section
/-! DEFINITION. Byte order (20_memory.md R51, R52), the command decoder (30_encoding.md R74) and the encoder (R71). -/

namespace Sys2Proof

/-- The `n` little-endian bytes of the number `v`, least significant first: byte `k` is `v[8k+7:8k]` (20_memory.md R52). -/
def leBytes : Nat → Nat → List Byte
  | 0, _ => []
  | n + 1, v => BitVec.ofNat 8 v :: leBytes n (v / 256)

/-- The number that a little-endian byte sequence stands for (20_memory.md R52). -/
def leValue : List Byte → Nat
  | [] => 0
  | b :: bs => b.toNat + 256 * leValue bs

/-- Why a sequence of bytes or a word is no command. -/
inductive DecodeReject where
  /-- The word is reserved (30_encoding.md R72); the machine then raises IllegalCommand. -/
  | reservedWord
  /-- Fewer than four bytes are left: a command word has 32 bits (30_encoding.md R70, log entry 19). -/
  | tooShort
deriving DecidableEq, Repr

/-- The decoder: the whole 32-bit word is compared with the four values of R71 (30_encoding.md R70, R74). -/
def decode (w : Word) : Except DecodeReject Instr :=
  if w = 0x00000001#32 then .ok .bldhdr
  else if w = 0x00000002#32 then .ok .redpal
  else if w = 0x00000003#32 then .ok .packpx
  else if w = 0x00000004#32 then .ok .encode
  else .error .reservedWord

/-- The command word of a command (30_encoding.md R71). -/
def encode (i : Instr) : Word :=
  match i with
  | .bldhdr => 0x00000001#32
  | .redpal => 0x00000002#32
  | .packpx => 0x00000003#32
  | .encode => 0x00000004#32

/-- Decoding from bytes: the next four bytes are one command word in little-endian order
(20_memory.md R53, log entry 19); the bytes after it are left. -/
def decodeBytes : List Byte → Except DecodeReject (Instr × List Byte)
  | b0 :: b1 :: b2 :: b3 :: rest =>
    match decode (BitVec.ofNat 32 (leValue [b0, b1, b2, b3])) with
    | .ok i => .ok (i, rest)
    | .error e => .error e
  | _ => .error .tooShort

/-- The four bytes of a command's word, little-endian (20_memory.md R53, log entry 19). -/
def encodeBytes (i : Instr) : List Byte := leBytes 4 (encode i).toNat

/-- The bytes of the word that spec/opcode_table.json numbers `w` with `nbits` bits; the bits above `nbits` are zero. -/
def tableBytes (nbits w : Nat) : List Byte := leBytes 4 (w % 2 ^ nbits)

/-- What the decoder reads from a row of spec/opcode_table.json; a value of more than 32 bits is no command word. -/
def decodeTableWord (nbits w : Nat) : Option Instr :=
  if w % 2 ^ nbits < 2 ^ 32 then
    match decodeBytes (tableBytes nbits w) with
    | .ok (i, _) => some i
    | .error _ => none
  else none

end Sys2Proof
end

