-- ==== Sys2Proof/Config.lean ====
section
/-! DEFINITION. The free values: constants with no body, so nothing can prove a value of one. The parameter `IDX_W` is a field of
State (log entry 9); the constants of the output format are fixed by the spec and stand with the commands that write them. -/

namespace Sys2Proof.Config

/-- The arbitrary value an access draws for the PIX cell `(x, y)` when the host has not written it since reset
(10_state.md R37, 93_implementation_defined.md U3). First argument: the access's number (log entries 4 and 5). -/
opaque freePix : Nat → Nat → Nat → Nat

/-- The arbitrary value an access draws for a PAL_IN entry that the host has not written since reset
(10_state.md R37, 93_implementation_defined.md U3). First argument: the access's number (log entries 4 and 5). -/
opaque freePal : Nat → Nat → BitVec 24

/-- The arbitrary byte an access draws at an OUT address of OUT_LEN or more
(20_memory.md R68, 93_implementation_defined.md U2). First argument: the access's number (log entry 4). -/
opaque freeOut : Nat → Nat → Byte

/-- The byte the reference decoder takes at a position past the end of its sequence, a case 42_pixel_packer.md R129 does not
give (DESIGN CHOICE, log entry 28). Argument: the position. -/
opaque freeDecoded : Nat → Byte

end Sys2Proof.Config
end

