-- ==== Sys2Proof/Machine/State.lean ====
section
/-! DEFINITION. The state of one block (10_state.md R20), the host accesses it serves, and the reset state (R36). -/

namespace Sys2Proof.Machine

/-- The registers of the CSR map (20_memory.md R59). -/
inductive CsrReg where
  | cmd
  | status
  | width
  | height
  | palLen
  | outLen
  | palIn (i : Fin 16)
deriving DecidableEq, Repr

/-- The size of a host access, 1, 2 or 4 bytes (20_memory.md R54, R55). -/
inductive AccessSize where
  | byte
  | half
  | word
deriving DecidableEq, Repr

/-- One host access to the block (70_reset_and_hazards.md R181, 30_encoding.md R84). -/
inductive HostAccess where
  /-- A write of the CSR space. -/
  | csrWrite (size : AccessSize) (offset : BitVec 8) (data : Word)
  /-- A read of the CSR space. -/
  | csrRead (size : AccessSize) (offset : BitVec 8)
  /-- A write of the value `v` to the PIX cell at column `x`, row `y`. -/
  | pixWrite (x y : Half) (v : Nat)
  /-- A read of the OUT space from byte address `addr` up. -/
  | outRead (addr : Word) (size : AccessSize)
  /-- The external reset event (70_reset_and_hazards.md R175, log entry 14). -/
  | reset
deriving DecidableEq, Repr

/-- The state of one block. The first nine fields are the architectural state of 10_state.md R20
(CMD holds nothing, R24, so it has no field); then come three of the model's own (log entries 1, 3 and 4) and the parameter
`IDX_W`, which nothing changes (log entry 9). -/
structure State where
  /-- WIDTH (10_state.md R21). -/
  width : Half
  /-- HEIGHT (10_state.md R22). -/
  height : Half
  /-- PAL_LEN (10_state.md R23). -/
  palLen : Half
  /-- STATUS (10_state.md R25). -/
  status : Word
  /-- OUT_LEN (10_state.md R26). -/
  outLen : Word
  /-- PAL_IN, entry `i` as `r ∥ g ∥ b` (10_state.md R27). -/
  palIn : Vector (BitVec 24) 16
  /-- Bit `i`: the host has written `PAL_IN[i]` since reset (10_state.md R37, log entry 6). -/
  palWritten : BitVec 16
  /-- PIX: the cells the host has written since reset, by address `65536*y + x` (10_state.md R28, R37, log entry 7). -/
  pix : List (Nat × Nat)
  /-- OUT: the bytes that are part of the last command's result (10_state.md R29, log entry 8). -/
  out : List Host.Cell
  /-- The host accesses not yet served, next one first (20_memory.md R63, 70_reset_and_hazards.md R182, log entry 1). -/
  pending : List HostAccess
  /-- What the latest host read returned (log entry 3). -/
  lastRead : Option Word
  /-- How many accesses have been served: each draws free values of its own (log entry 4). -/
  draws : Nat
  /-- `IDX_W`, the width of a PIX cell: the argument with which the block is built, `IDX_W >= 4` (00_scope.md R7). It is no state
  of the spec (10_state.md R34); a block of another width is the same model with another value here (log entry 9). -/
  idxW : Nat
deriving DecidableEq, Repr

/-- Why the machine stops: nothing stops it. The block has "no bus error and no access fault" (20_memory.md R67) and a
command's error is reported in STATUS and the machine goes on (60_exceptions.md R161, log entries 21 and 24). -/
inductive Fault : Type
deriving DecidableEq, Repr

/-- Why a step has no meaning. -/
inductive Refusal where
  /-- Raised by an arm of `exec` whose command has no meaning yet; no arm is such a one. Safe. -/
  | notModelled (mnemonic : String)
  /-- Raised by `serve` for a host access to the CSR space that is not 32 bits wide, not at a multiple of 4 or not at a
  listed offset: "the model gives the host no such move" (20_memory.md R55, 93_implementation_defined.md U5, log entry 11).
  Safe: the model promises nothing of such a run. -/
  | malformedCsrAccess
  /-- Raised by `serve` for a PIX write of a value that does not fit a cell of `IDX_W` bits, which no host can present
  (10_state.md R28, 95_test_vectors.md family PACKPX, log entry 10). Safe. -/
  | pixelValueTooWide
deriving DecidableEq, Repr

/-- The block right after reset with nothing to serve (10_state.md R36). PAL_IN, PIX and OUT are unspecified: no PAL_IN
entry and no PIX cell is written, and OUT has no defined byte. The stored 0 of `palIn` is never read (log entry 6).
`IDX_W` has its default, 8 (00_scope.md R7); `resetBlock` takes it as an argument. -/
def State.reset : State where
  width := 0
  height := 0
  palLen := 0
  status := 0
  outLen := 0
  palIn := Vector.replicate 16 0
  palWritten := 0
  pix := []
  out := []
  pending := []
  lastRead := none
  draws := 0
  idxW := 8

end Sys2Proof.Machine
end

