-- ==== Sys2Proof/Machine/Flags.lean ====
section
/-! DEFINITION. The four errors, their codes and the STATUS word (10_state.md R25, 60_exceptions.md R150, R151). -/

namespace Sys2Proof.Machine

/-- The errors a command can end with (60_exceptions.md R150). -/
inductive CommandError where
  /-- A pixel index of the image is above 15 (60_exceptions.md R154). -/
  | pixelRange
  /-- The image width is odd (60_exceptions.md R155). -/
  | oddWidth
  /-- The source declares or uses more than 16 colour indices (60_exceptions.md R156). -/
  | paletteOverflow
  /-- The word written to CMD is reserved (60_exceptions.md R157). -/
  | illegalCommand
deriving DecidableEq, Repr

/-- The value of STATUS.ERRCODE for each error (60_exceptions.md R151). -/
def errCode (e : CommandError) : BitVec 4 :=
  match e with
  | .pixelRange => 1
  | .oddWidth => 2
  | .paletteOverflow => 3
  | .illegalCommand => 4

/-- The STATUS word with the given fields, its reserved bits zero (10_state.md R25). -/
def statusWord (done err : Bool) (code : BitVec 4) : Word :=
  0#24 ++ code ++ 0#2 ++ BitVec.ofBool err ++ BitVec.ofBool done

/-- STATUS after success: DONE = 1, ERR = 0, ERRCODE = 0 (60_exceptions.md R153). -/
def statusSuccess : Word := statusWord true false 0

/-- STATUS after the error `e`: DONE = 1, ERR = 1, ERRCODE = its code (60_exceptions.md R152). -/
def statusError (e : CommandError) : Word := statusWord true true (errCode e)

/-- STATUS.DONE, bit 0 (10_state.md R25). -/
def statusDone (w : Word) : Bool := w.getLsbD 0

/-- STATUS.ERR, bit 1 (10_state.md R25). -/
def statusErr (w : Word) : Bool := w.getLsbD 1

/-- STATUS.ERRCODE, bits 7:4 (10_state.md R25). -/
def statusErrCode (w : Word) : BitVec 4 := w.extractLsb' 4 4

end Sys2Proof.Machine
end

