-- ==== Sys2Proof/Machine/Ops.lean ====
section
/-! DEFINITION. The operations over the spaces and registers: sparse memory, MemWrite and MemRead (20_memory.md R52),
the two exits of a command, `commit` and `raise` (00_scope.md R9, 60_exceptions.md R152, R153), and reset (R175).
Taking an error is `raise`; there is no return from one (60_exceptions.md R161). -/

namespace Sys2Proof.Machine

/-- The canonical form of a sparse space: addresses strictly rising. An unlisted address reads as no fixed value
(log entries 7 and 8), so no listed entry is redundant. -/
abbrev Memory.wf {α : Type} (m : List (Nat × α)) : Prop := m.Pairwise (fun c d => c.1 < d.1)

/-- What a sparse space lists at an address. -/
def cellAt {α : Type} : List (Nat × α) → Nat → Option α
  | [], _ => none
  | (k, v) :: m, a => if k = a then some v else cellAt m a

/-- A sparse space with one cell written, its canonical form kept. -/
def putCell {α : Type} : List (Nat × α) → Nat → α → List (Nat × α)
  | [], a, v => [(a, v)]
  | (k, u) :: m, a, v =>
    if a < k then (a, v) :: (k, u) :: m
    else if a = k then (a, v) :: m
    else (k, u) :: putCell m a v

/-- The bytes `bs` written one by one from address `a` up (00_scope.md R9, the loop of `commit`). -/
def storeBytes : List Host.Cell → Nat → List Byte → List Host.Cell
  | m, _, [] => m
  | m, a, b :: bs => storeBytes (putCell m a b) (a + 1) bs

/-- `MemWrite(addr, n, v)`: byte `k` of the little-endian `v` at `addr + k` (20_memory.md R52). DESIGN CHOICE, unsafe (log
entry 29), for arguments R52 leaves out: any `n` is taken, `v` loses the bits above `8n`, and no address wraps. -/
def memWrite (m : List Host.Cell) (addr n v : Nat) : List Host.Cell := storeBytes m addr (leBytes n v)

/-- The byte a read of OUT gives: the result's byte below OUT_LEN, a free byte at OUT_LEN and above
(10_state.md R29, 20_memory.md R68, log entries 8 and 12). -/
def outByte (s : State) (a : Nat) : Byte :=
  if a < s.outLen.toNat then (cellAt s.out a).getD (Config.freeOut s.draws a) else Config.freeOut s.draws a

/-- The `n` bytes of OUT from `addr` up. -/
def outBytes (s : State) (addr n : Nat) : List Byte := (List.range n).map fun k => outByte s (addr + k)

/-- `MemRead(addr, n)`, assembled little-endian from bytes (20_memory.md R52, R54). For an `n` other than 1, 2 and 4, which
R52 leaves out, it is the same sum of `n` bytes (DESIGN CHOICE, unsafe, log entry 29). -/
def memRead (s : State) (addr n : Nat) : Nat := leValue (outBytes s addr n)

/-- The result the host hands to the sink, `OUT[0 .. OUT_LEN-1]` (10_state.md R29, 70_reset_and_hazards.md R179). -/
def resultBytes (s : State) : List Byte := outBytes s 0 s.outLen.toNat

/-- Success exit of a command (00_scope.md R9, 60_exceptions.md R153). Nothing of OUT beyond the result is kept, since
bytes at OUT_LEN and above are unspecified (20_memory.md R68, log entry 8). -/
def commit (buf : List Byte) (s : State) : State :=
  { s with out := storeBytes [] 0 buf, outLen := BitVec.ofNat 32 buf.length, status := statusSuccess }

/-- Failure exit of a command: the block's error entry (00_scope.md R9, 60_exceptions.md R152). No byte of OUT is
specified afterwards (20_memory.md R68, log entry 8). -/
def raise (e : CommandError) (s : State) : State :=
  { s with out := [], outLen := 0, status := statusError e }

/-- A block built with the given `IDX_W`, by default 8, right after reset (00_scope.md R7, 10_state.md R36, log entry 9). -/
def resetBlock (idxW : Nat := 8) : State := { State.reset with idxW := idxW }

/-- The reset event (70_reset_and_hazards.md R175): every register as 10_state.md R36 says; the block stays one of its `IDX_W`,
and what stands on the host's side of the port is kept (log entries 9 and 14). -/
def applyReset (s : State) : State :=
  { resetBlock s.idxW with pending := s.pending, lastRead := s.lastRead, draws := s.draws }

/-- The next access leaves the queue `rest` and draws free values of its own (log entries 1 and 4). -/
def beginAccess (rest : List HostAccess) (s : State) : State :=
  { s with pending := rest, draws := s.draws + 1 }

/-- A host read returns the value `v` and changes nothing of the block (20_memory.md R58, log entry 3). -/
def answerRead (v : Word) (s : State) : State := { s with lastRead := some v }

/-- The address of the PIX cell `(x, y)` in the model's listing, one for each pair (10_state.md R28, log entries 7 and 18). -/
def pixKey (x y : Nat) : Nat := y * 65536 + x

/-- A host write of a PIX cell only stores the value (20_memory.md R58). -/
def writePix (x y : Half) (v : Nat) (s : State) : State :=
  { s with pix := putCell s.pix (pixKey x.toNat y.toNat) v }

/-- A host write of WIDTH stores bits 15:0 (10_state.md R21). -/
def writeWidth (d : Word) (s : State) : State := { s with width := d.setWidth 16 }

/-- A host write of HEIGHT stores bits 15:0 (10_state.md R22). -/
def writeHeight (d : Word) (s : State) : State := { s with height := d.setWidth 16 }

/-- A host write of PAL_LEN stores bits 15:0 (10_state.md R23). -/
def writePalLen (d : Word) (s : State) : State := { s with palLen := d.setWidth 16 }

/-- A host write of `PAL_IN[i]` stores bits 23:0, and the entry is written from then on (10_state.md R27, R37). -/
def writePal (i : Fin 16) (d : Word) (s : State) : State :=
  { s with palIn := s.palIn.set i (d.setWidth 24), palWritten := s.palWritten ||| BitVec.twoPow 16 i }

end Sys2Proof.Machine
end

