-- ==== Sys2Proof/Machine/Operands.lean ====
section
/-! DEFINITION. The operands of a command, read from the state (30_encoding.md R73, 00_scope.md R9). -/

namespace Sys2Proof.Machine

/-- `x[WIDTH]` as a number (00_scope.md R9). -/
def widthOf (s : State) : Nat := s.width.toNat

/-- `x[HEIGHT]` as a number (00_scope.md R9). -/
def heightOf (s : State) : Nat := s.height.toNat

/-- `x[PAL_LEN]` as a number (00_scope.md R9). -/
def palLenOf (s : State) : Nat := s.palLen.toNat

/-- `w[0] == 1`: the width is odd (00_scope.md R11, 42_pixel_packer.md R123). -/
def widthOdd (s : State) : Bool := s.width.getLsbD 0

/-- `PAL[i]`: the entry if the host has written it since reset, else a free value (10_state.md R27, R37). -/
def palAt (s : State) (i : Fin 16) : BitVec 24 :=
  if s.palWritten.getLsbD i then s.palIn[i] else Config.freePal s.draws i

/-- The red component of an entry, bits 23:16 (10_state.md R27). -/
def palR (e : BitVec 24) : Byte := e.extractLsb' 16 8

/-- The green component of an entry, bits 15:8 (10_state.md R27). -/
def palG (e : BitVec 24) : Byte := e.extractLsb' 8 8

/-- The blue component of an entry, bits 7:0 (10_state.md R27). -/
def palB (e : BitVec 24) : Byte := e.extractLsb' 0 8

/-- `PIX(x, y)`: the cell if the host has written it since reset, else a free value of `IDX_W` bits
(10_state.md R28, R37, log entries 5, 9 and 22). -/
def pixAt (s : State) (x y : Nat) : Nat :=
  (cellAt s.pix (pixKey x y)).getD (Config.freePix s.draws x y % 2 ^ s.idxW)

/-- The index values of row `y`, columns rising (20_memory.md R61). -/
def pixRow (s : State) (y : Nat) : List Nat := (List.range (widthOf s)).map fun x => pixAt s x y

/-- The index values of the image rectangle `x < WIDTH`, `y < HEIGHT`, rows top to bottom (42_pixel_packer.md R122). -/
def pixCells (s : State) : List Nat := (List.range (heightOf s)).flatMap (pixRow s)

/-- Some index of the image rectangle is above 15 (42_pixel_packer.md R124). -/
def pixelOutOfRange (s : State) : Bool := (pixCells s).any fun v => decide (15 < v)

/-- `used`: the distinct index values of the image rectangle, each once (43_image_encoder.md R135, R137). -/
def usedValues (s : State) : List Nat := (pixCells s).foldr List.insert []

end Sys2Proof.Machine
end

