-- ==== Sys2Proof/Machine/Header.lean ====
section
/-! DEFINITION. The Header Builder, command BLDHDR (40_header_builder.md). -/

namespace Sys2Proof.Machine

/-- The format tag, `0x03` (00_scope.md R7, 30_encoding.md R76). -/
def formatTag : Byte := 0x03

/-- The flags byte, `0x03`: bit 0 read-only, bit 1 palette-present (30_encoding.md R77). -/
def flagsByte : Byte := 0x03

/-- The colour count, fixed 16 (30_encoding.md R76). -/
def colorCount : Nat := 16

/-- The stride, reserved, always 0 (30_encoding.md R81). -/
def stride : Nat := 0

/-- The 12 bytes of the header (40_header_builder.md R100, 30_encoding.md R76). -/
def headerBytes (s : State) : List Byte :=
  [formatTag] ++ [flagsByte] ++ leBytes 2 colorCount ++ leBytes 2 (widthOf s) ++ leBytes 2 (heightOf s) ++ leBytes 4 stride

/-- BLDHDR checks nothing and always succeeds (40_header_builder.md R100, R101). -/
def execBldhdr (s : State) : Host.Outcome State Fault Refusal := .next (commit (headerBytes s) s)

end Sys2Proof.Machine
end

