-- ==== Sys2Proof/Machine/Palette.lean ====
section
/-! DEFINITION. The Palette Reducer, command REDPAL (41_palette_reducer.md). -/

namespace Sys2Proof.Machine

/-- `rgb565(r, g, b)`: truncation to 5, 6 and 5 bits (41_palette_reducer.md R110). -/
def rgb565 (r g b : Byte) : Half :=
  ((r &&& 0xF8).setWidth 16 <<< 8) ||| ((g &&& 0xFC).setWidth 16 <<< 3) ||| ((b &&& 0xF8).setWidth 16 >>> 3)

/-- The RGB565 value of a PAL_IN entry (41_palette_reducer.md R111). -/
def reduceEntry (e : BitVec 24) : Half := rgb565 (palR e) (palG e) (palB e)

/-- The two bytes of palette slot `i`: an entry in use, or padding (41_palette_reducer.md R111, R112). -/
def slotBytes (s : State) (i : Fin 16) : List Byte :=
  if i.val < min 16 (palLenOf s) then leBytes 2 (reduceEntry (palAt s i)).toNat else [0x00, 0x00]

/-- The 32 bytes of the palette block (41_palette_reducer.md R111, 30_encoding.md R78). -/
def paletteBytes (s : State) : List Byte := (List.finRange 16).flatMap (slotBytes s)

/-- REDPAL raises no error, whatever PAL_LEN is (41_palette_reducer.md R111, R113). -/
def execRedpal (s : State) : Host.Outcome State Fault Refusal := .next (commit (paletteBytes s) s)

end Sys2Proof.Machine
end

