-- ==== Sys2Proof/Machine/Pixels.lean ====
section
/-! DEFINITION. The Pixel Packer, command PACKPX (42_pixel_packer.md). -/

namespace Sys2Proof.Machine

/-- `pack(p1, p2)`: the even column in the high nibble, the odd column in the low nibble (42_pixel_packer.md R120). -/
def packByte (p1 p2 : Nat) : Byte := BitVec.ofNat 8 ((p1 <<< 4) ||| p2)

/-- The packed bytes of row `y`, column pairs left to right (42_pixel_packer.md R121). -/
def packedRow (s : State) (y : Nat) : List Byte :=
  (List.range (widthOf s / 2)).map fun c => packByte (pixAt s (2 * c) y) (pixAt s (2 * c + 1) y)

/-- The packed pixel block, rows top to bottom (42_pixel_packer.md R121, R122). -/
def packedPixels (s : State) : List Byte := (List.range (heightOf s)).flatMap (packedRow s)

/-- The checks of PACKPX: the width first, then the range (42_pixel_packer.md R122, R125). -/
def packError (s : State) : Option CommandError :=
  if widthOdd s then some .oddWidth
  else if pixelOutOfRange s then some .pixelRange
  else none

/-- PACKPX (42_pixel_packer.md R122). -/
def execPackpx (s : State) : Host.Outcome State Fault Refusal :=
  match packError s with
  | some e => .next (raise e s)
  | none => .next (commit (packedPixels s) s)

end Sys2Proof.Machine
end

