-- ==== Sys2Proof/Machine/Encoder.lean ====
section
/-! DEFINITION. The Image Encoder, command ENCODE (43_image_encoder.md). -/

namespace Sys2Proof.Machine

/-- The source declares or uses more than 16 colour indices (43_image_encoder.md R137). -/
def paletteOverflows (s : State) : Bool := decide (16 < palLenOf s) || decide (16 < (usedValues s).length)

/-- The validation of ENCODE, in its order (43_image_encoder.md R135, R136). -/
def encodeError (s : State) : Option CommandError :=
  if paletteOverflows s then some .paletteOverflow
  else if widthOdd s then some .oddWidth
  else if (usedValues s).any (fun v => decide (15 < v)) then some .pixelRange
  else none

/-- The encoded image, header ∥ palette ∥ pixels (43_image_encoder.md R135, 30_encoding.md R75). -/
def encodedImage (s : State) : List Byte := headerBytes s ++ paletteBytes s ++ packedPixels s

/-- ENCODE (43_image_encoder.md R135). -/
def execEncode (s : State) : Host.Outcome State Fault Refusal :=
  match encodeError s with
  | some e => .next (raise e s)
  | none => .next (commit (encodedImage s) s)

end Sys2Proof.Machine
end

