-- ==== Sys2Proof/Machine/Dispatch.lean ====
section
/-! DEFINITION. One arm per command. -/

namespace Sys2Proof.Machine

def exec (i : Instr) (s : State) : Host.Outcome State Fault Refusal :=
  match i with
  | .bldhdr => Sys2Proof.Machine.execBldhdr s
  | .redpal => Sys2Proof.Machine.execRedpal s
  | .packpx => Sys2Proof.Machine.execPackpx s
  | .encode => Sys2Proof.Machine.execEncode s

end Sys2Proof.Machine
end

