-- ==== Sys2Proof/Machine/Bus.lean ====
section
/-! DEFINITION. Serving one host access (70_reset_and_hazards.md R181): the CSR map (20_memory.md R59), the start of a
command (10_state.md R24), the PIX write, the OUT read and reset. -/

namespace Sys2Proof.Machine

/-- The CSR register at an offset; `none` at an offset that is reserved or no multiple of 4 (20_memory.md R55, R59). -/
def csrReg? (offset : BitVec 8) : Option CsrReg :=
  if offset = 0x00#8 then some .cmd
  else if offset = 0x04#8 then some .status
  else if offset = 0x08#8 then some .width
  else if offset = 0x0C#8 then some .height
  else if offset = 0x10#8 then some .palLen
  else if offset = 0x14#8 then some .outLen
  else if h : 0x40 ≤ offset.toNat ∧ offset.toNat < 0x80 ∧ offset.toNat % 4 = 0 then
    some (.palIn ⟨(offset.toNat - 0x40) / 4, by omega⟩)
  else none

/-- The offset of a CSR register (20_memory.md R59, 30_encoding.md R84). -/
def csrOffset (r : CsrReg) : BitVec 8 :=
  match r with
  | .cmd => 0x00#8
  | .status => 0x04#8
  | .width => 0x08#8
  | .height => 0x0C#8
  | .palLen => 0x10#8
  | .outLen => 0x14#8
  | .palIn i => BitVec.ofNat 8 (0x40 + 4 * i.val)

/-- What a host read of a CSR register returns; CMD reads 0 (20_memory.md R59, 10_state.md R21 to R27). -/
def csrRead (s : State) (r : CsrReg) : Word :=
  match r with
  | .cmd => 0
  | .status => s.status
  | .width => s.width.setWidth 32
  | .height => s.height.setWidth 32
  | .palLen => s.palLen.setWidth 32
  | .outLen => s.outLen
  | .palIn i => (palAt s i).setWidth 32

/-- A host write of the word `w` to CMD: decode it and run the command to its end, or raise IllegalCommand
(10_state.md R24, 30_encoding.md R74, 60_exceptions.md R157). -/
def runCommandWord (w : Word) (s : State) : Host.Outcome State Fault Refusal :=
  match decode w with
  | .ok i => exec i s
  | .error _ => .next (raise .illegalCommand s)

/-- A host write of a CSR register; writes of STATUS and OUT_LEN are ignored (20_memory.md R58, R59). -/
def csrWrite (r : CsrReg) (d : Word) (s : State) : Host.Outcome State Fault Refusal :=
  match r with
  | .cmd => runCommandWord d s
  | .status => .next s
  | .width => .next (writeWidth d s)
  | .height => .next (writeHeight d s)
  | .palLen => .next (writePalLen d s)
  | .outLen => .next s
  | .palIn i => .next (writePal i d s)

/-- How many bytes an access of a size covers (20_memory.md R54). -/
def sizeBytes (z : AccessSize) : Nat :=
  match z with
  | .byte => 1
  | .half => 2
  | .word => 4

/-- A well-formed CSR access is 32 bits wide at a listed offset (20_memory.md R55). -/
def csrTarget? (z : AccessSize) (offset : BitVec 8) : Option CsrReg :=
  if z = .word then csrReg? offset else none

/-- A value that fits a PIX cell of the block, which has `IDX_W` bits (00_scope.md R7, 10_state.md R28). -/
def pixFits (s : State) (v : Nat) : Bool := decide (v < 2 ^ s.idxW)

/-- One host access, served whole (20_memory.md R63, 70_reset_and_hazards.md R181, R182). A narrow OUT read is returned
zero-extended (log entry 13). -/
def serve (a : HostAccess) (s : State) : Host.Outcome State Fault Refusal :=
  match a with
  | .csrWrite z offset d =>
    match csrTarget? z offset with
    | some r => csrWrite r d s
    | none => .refused .malformedCsrAccess
  | .csrRead z offset =>
    match csrTarget? z offset with
    | some r => .next (answerRead (csrRead s r) s)
    | none => .refused .malformedCsrAccess
  | .pixWrite x y v => if pixFits s v then .next (writePix x y v s) else .refused .pixelValueTooWide
  | .outRead addr z => .next (answerRead (BitVec.ofNat 32 (memRead s addr.toNat (sizeBytes z))) s)
  | .reset => .next (applyReset s)

/-- The host access that starts the command word `w` (10_state.md R24, 30_encoding.md R84). -/
def commandAccess (w : Word) : HostAccess := .csrWrite .word (csrOffset .cmd) w

/-- The command word of a row of spec/opcode_table.json. -/
def tableCommandWord (nbits w : Nat) : Word := BitVec.ofNat 32 (w % 2 ^ nbits)

end Sys2Proof.Machine
end

