-- ==== Sys2Proof/Machine/Step.lean ====
section
/-! DEFINITION. One step of the block: it serves the next host access, and with none it is idle. -/

namespace Sys2Proof.Machine

/-- One step: the next pending host access is served whole, in the order issued (20_memory.md R63, log entry 1). With none
pending the block is idle and "does nothing on its own" (70_reset_and_hazards.md R175, log entry 2). -/
def step (s : State) : Host.Outcome State Fault Refusal :=
  match s.pending with
  | [] => .next s
  | a :: rest => serve a (beginAccess rest s)

/-- `s` with the command word as the very next host access: the block fetches no instruction, the host writes it to CMD
(10_state.md R24, R31, log entry 1). -/
def State.withFetchWord (s : State) (nbits w : Nat) : State :=
  { s with pending := commandAccess (tableCommandWord nbits w) :: s.pending }

end Sys2Proof.Machine
end

