-- ==== Sys2Proof/Machine/Platform.lean ====
section
/-! DEFINITION. Several blocks: the product of independent copies, any of which may step (60_exceptions.md R165, log entry 15). -/

namespace Sys2Proof.Machine

/-- A platform of blocks, and the one counter from which the accesses of all of them draw their free values, so that no two
accesses share a draw (log entries 4 and 15). The blocks themselves share nothing (60_exceptions.md R165). -/
structure Platform where
  /-- The blocks, told apart by their place (60_exceptions.md R165). -/
  units : List State
  /-- How many accesses the blocks have served together. -/
  draws : Nat
deriving DecidableEq, Repr

/-- `N_UNITS` blocks with cells of `IDX_W` bits, right after reset: "All blocks of a platform are reset alike"
(70_reset_and_hazards.md R175). The two arguments and their defaults are those of 00_scope.md R7. -/
def resetPlatform (nUnits : Nat := 1) (idxW : Nat := 8) : Platform where
  units := List.replicate nUnits (resetBlock idxW)
  draws := 0

/-- Block `k` of the platform steps; `none` where the platform has no such block (60_exceptions.md R165). -/
def stepUnit (p : Platform) (k : Nat) : Option (Host.Outcome Platform Fault Refusal) :=
  match p.units[k]? with
  | none => none
  | some s =>
    match step { s with draws := p.draws } with
    | .next t => some (.next { units := p.units.set k t, draws := t.draws })
    | .fault f => some (.fault f)
    | .refused r => some (.refused r)

end Sys2Proof.Machine
end

