-- ==== Sys2Proof/Machine/Reference.lean ====
section
/-! DEFINITION. The reference decoder of 42_pixel_packer.md R129, "for tests only": no command and no part of the block. -/

namespace Sys2Proof.Machine

/-- Byte `k` of a sequence, `e[k]` of 42_pixel_packer.md R129. DESIGN CHOICE, safe (log entry 28): R129 gives the decoder only
for a result of ENCODE or of PACKPX and says nothing of a position past the end of a shorter sequence; the byte there is free. -/
def byteOf (e : List Byte) (k : Nat) : Byte := e.getD k (Config.freeDecoded k)

/-- The two indices of a packed byte, even column first (42_pixel_packer.md R129). -/
def unpackByte (b : Byte) : List Nat := [(b.extractLsb' 4 4).toNat, (b.extractLsb' 0 4).toNat]

/-- The index grid, row by row, of the packed pixels that start at byte `base` of `e` (42_pixel_packer.md R129).
DESIGN CHOICE, unsafe (log entry 28): of an odd width, which no result has, a row keeps the `w / 2` whole pairs alone. -/
def unpackGrid (e : List Byte) (base w h : Nat) : List (List Nat) :=
  (List.range h).map fun y => (List.range (w / 2)).flatMap fun c => unpackByte (byteOf e (base + y * (w / 2) + c))

/-- `unpack(e)`: width, height and grid of a result of ENCODE (42_pixel_packer.md R129); of any other sequence, log entry 28. -/
def unpack (e : List Byte) : Nat × Nat × List (List Nat) :=
  let w := (byteOf e 4).toNat + 256 * (byteOf e 5).toNat
  let h := (byteOf e 6).toNat + 256 * (byteOf e 7).toNat
  (w, h, unpackGrid e 44 w h)

/-- The index grid of the source image (42_pixel_packer.md R130). -/
def sourceGrid (s : State) : List (List Nat) := (List.range (heightOf s)).map (pixRow s)

end Sys2Proof.Machine
end

