-- ==== Sys2Proof/Machine/Script.lean ====
section
/-! DEFINITION. The host-script notation and the accesses each line stands for (30_encoding.md R82 to R84). -/

namespace Sys2Proof.Machine

/-- A line of a host script (30_encoding.md R82, R83). -/
inductive ScriptLine where
  | wr (r : CsrReg) (v : Word)
  | rd (r : CsrReg)
  | pix (x y : Half) (v : Nat)
  | out (addr : Word) (n : Nat)
  | cmd (i : Instr)
  | setdim (w h : Word)
  | pal (i : Fin 16) (r g b : Byte)
  | row (y : Half) (vs : List Nat)
deriving DecidableEq, Repr

/-- `WR <reg>, <value>` as an access (30_encoding.md R82, R84). -/
def wrAccess (r : CsrReg) (v : Word) : HostAccess := .csrWrite .word (csrOffset r) v

/-- `ROW <y>: <v0> <v1> ...` from column `x` on, as PIX lines (30_encoding.md R83).
DESIGN CHOICE, unsafe (log entry 27): R83 does not say what a line with more than 65536 values means; the column counts modulo
2^16, so value 65536 goes to column 0 again. -/
def rowAccesses (y : Half) : Nat → List Nat → List HostAccess
  | _, [] => []
  | x, v :: vs => .pixWrite (BitVec.ofNat 16 x) y v :: rowAccesses y (x + 1) vs

/-- The host accesses of a line, in order (30_encoding.md R82 to R84).
R82 leaves two points of `OUT <addr>, <n>` open, and both are this model's own choice. DESIGN CHOICE, safe (log entry 26): the
line is `n` one-byte reads in rising order, each an access with its own draw. DESIGN CHOICE, unsafe (log entry 25): a line that
runs past address 2^32 - 1 goes on at address 0, since each one-byte read carries a 32-bit address. -/
def accessesOf (l : ScriptLine) : List HostAccess :=
  match l with
  | .wr r v => [wrAccess r v]
  | .rd r => [.csrRead .word (csrOffset r)]
  | .pix x y v => [.pixWrite x y v]
  | .out addr n => (List.range n).map fun k => .outRead (addr + BitVec.ofNat 32 k) .byte
  | .cmd i => [commandAccess (encode i)]
  | .setdim w h => [wrAccess .width w, wrAccess .height h]
  | .pal i r g b => [wrAccess (.palIn i) (0#8 ++ r ++ g ++ b)]
  | .row y vs => rowAccesses y 0 vs

/-- A script as the accesses the host issues, top to bottom (30_encoding.md R82). -/
def scriptAccesses (ls : List ScriptLine) : List HostAccess := ls.flatMap accessesOf

end Sys2Proof.Machine
end

