-- ==== Sys2Proof/Safety.lean ====
section
/-! DEFINITION. The terms claims use: the invariant of the block, what stays the same, and when a run is a proper one. -/

namespace Sys2Proof.Machine

/-- The inputs of a command are the same in `s` and `t`: WIDTH, HEIGHT, PAL_LEN, PAL_IN and PIX (10_state.md R35). -/
def SameInputs (s t : State) : Prop :=
  t.width = s.width ∧ t.height = s.height ∧ t.palLen = s.palLen ∧
    t.palIn = s.palIn ∧ t.palWritten = s.palWritten ∧ t.pix = s.pix

/-- What the engine writes is the same in `s` and `t`: STATUS, OUT_LEN and OUT (10_state.md R20). -/
def SameOutputs (s t : State) : Prop := t.status = s.status ∧ t.outLen = s.outLen ∧ t.out = s.out

/-- The model's own fields, the host's side of the port and the parameter `IDX_W`, are the same in `s` and `t`. -/
def SameHostSide (s t : State) : Prop :=
  t.pending = s.pending ∧ t.lastRead = s.lastRead ∧ t.draws = s.draws ∧ t.idxW = s.idxW

/-- Every byte of OUT is unspecified: a read of it, by any access, draws a free byte (20_memory.md R68). -/
def OutUnspecified (s : State) : Prop :=
  ∀ d a : Nat, outByte { s with draws := d } a = Config.freeOut d a

/-- The legal values of STATUS (10_state.md R25). -/
def legalStatus (w : Word) : Bool :=
  w == 0x00 || w == 0x01 || w == 0x13 || w == 0x23 || w == 0x33 || w == 0x43

/-- The largest result length (00_scope.md R11, 43_image_encoder.md R139). -/
def maxResultLen : Nat := 2147385389

/-- What holds in every state of a run: canonical spaces, PIX cells inside the space and of `IDX_W` bits, OUT defined
exactly on the result, OUT_LEN within its bound, STATUS legal, no result without success, and `IDX_W` at least 4
(10_state.md R25, R26, R28, R29; 00_scope.md R7, R11; log entries 7, 8 and 9). -/
def State.Inv (s : State) : Prop :=
  Memory.wf s.pix ∧
    (∀ c ∈ s.pix, c.1 < 2 ^ 32 ∧ c.2 < 2 ^ s.idxW) ∧
    Memory.wf s.out ∧
    s.out.map Prod.fst = List.range s.outLen.toNat ∧
    s.outLen.toNat ≤ maxResultLen ∧
    legalStatus s.status = true ∧
    (s.status ≠ 0x01 → s.outLen = 0) ∧
    4 ≤ s.idxW

/-- A result is there to be read: DONE is 1 and ERR is 0 (70_reset_and_hazards.md R179). -/
def resultReady (s : State) : Bool := statusDone s.status && !statusErr s.status

/-- Every palette entry that REDPAL reads has been written since reset (70_reset_and_hazards.md R177). -/
def PaletteWritten (s : State) : Prop :=
  ∀ i : Fin 16, i.val < min 16 (palLenOf s) → s.palWritten.getLsbD i = true

/-- Every cell of the image rectangle has been written since reset (70_reset_and_hazards.md R177). -/
def PixelsWritten (s : State) : Prop :=
  ∀ x y : Nat, x < widthOf s → y < heightOf s → (cellAt s.pix (pixKey x y)).isSome = true

/-- What the host must have written before each command (70_reset_and_hazards.md R177). -/
def InputsWritten (i : Instr) (s : State) : Prop :=
  match i with
  | .bldhdr => True
  | .redpal => PaletteWritten s
  | .packpx => PixelsWritten s
  | .encode => PaletteWritten s ∧ PixelsWritten s

/-- Every index of the image rectangle is at most 15 (42_pixel_packer.md R124). -/
def PixelsInRange (s : State) : Prop :=
  ∀ x y : Nat, x < widthOf s → y < heightOf s → pixAt s x y ≤ 15

/-- The set of distinct index values in the image rectangle (43_image_encoder.md R135). -/
def usedSet (s : State) : Finset Nat :=
  (Finset.range (widthOf s) ×ˢ Finset.range (heightOf s)).image fun p => pixAt s p.1 p.2

/-- A valid image in the document's sense (70_reset_and_hazards.md R177, 43_image_encoder.md R140, R141). -/
def ValidImage (s : State) : Prop :=
  0 < widthOf s ∧ widthOf s % 2 = 0 ∧ 0 < heightOf s ∧ palLenOf s ≤ 16 ∧
    ∀ x y : Nat, x < widthOf s → y < heightOf s → pixAt s x y < palLenOf s ∧ pixAt s x y ≤ 15

/-- The number of pixel bytes, `width*height/2` (00_scope.md R11). -/
def pixelBytes (s : State) : Nat := widthOf s * heightOf s / 2

end Sys2Proof.Machine
end

