-- ==== Sys2Proof/Certificates/Slice0/Obligations.lean ====
section
/-! DEFINITION. The statements for the provers. Each docstring names the rules of spec/ that its statement formalises. -/

open Sys2Proof Sys2Proof.Machine

/-! ## Reset, the step and the invariant -/

/-- 10_state.md R36: the reset values; CMD reads 0; PAL_IN, PIX and OUT are unspecified, so a read of any of them by any
access draws a free value. -/
def Obligations.ResetValues : Prop :=
  State.reset.width = 0 ∧ State.reset.height = 0 ∧ State.reset.palLen = 0 ∧
    csrRead State.reset .cmd = 0 ∧ State.reset.status = 0x00000000 ∧ State.reset.outLen = 0 ∧
    (∀ (d : Nat) (i : Fin 16), palAt { State.reset with draws := d } i = Config.freePal d i) ∧
    (∀ d x y : Nat, pixAt { State.reset with draws := d } x y = Config.freePix d x y % 2 ^ State.reset.idxW) ∧
    OutUnspecified State.reset

/-- The reset state meets the invariant, of the default block and of a block of any `IDX_W` of at least 4 (10_state.md R25, R26,
R36; 00_scope.md R7). -/
def Obligations.ResetMeetsInvariant : Prop := State.Inv State.reset ∧ ∀ idxW : Nat, 4 ≤ idxW → State.Inv (resetBlock idxW)

/-- Every step keeps the invariant: canonical spaces, PIX cells of `IDX_W` bits, OUT defined exactly on the result, OUT_LEN
within its bound, STATUS legal, no result without success, `IDX_W` at least 4 (10_state.md R25, R26, R28, R29; 00_scope.md R7,
R11).
The canonical form and the listing of OUT are the model's choice (log entries 7 and 8). -/
def Obligations.StepKeepsInvariant : Prop :=
  ∀ s t : State, State.Inv s → step s = .next t → State.Inv t

/-- A step runs the decoded command, on the state in which the access has been taken from the queue and has its own draws
(10_state.md R24; log entries 1 and 4); `withFetchWord` puts such an access first. -/
def Obligations.StepRunsDecodedCommand : Prop :=
  (∀ (s : State) (w : Word) (rest : List HostAccess) (i : Instr),
      s.pending = commandAccess w :: rest → decode w = .ok i →
        step s = exec i { s with pending := rest, draws := s.draws + 1 }) ∧
    (∀ (s : State) (w : Nat) (i : Instr), decodeTableWord 32 w = some i →
      step (s.withFetchWord 32 w) = exec i { s with draws := s.draws + 1 })

/-- With no host access the block "does nothing on its own" (70_reset_and_hazards.md R175; log entry 2), and otherwise it
serves the next access whole, in the order issued (20_memory.md R63; log entries 1 and 4). -/
def Obligations.StepServesAccessesInOrder : Prop :=
  (∀ s : State, s.pending = [] → step s = .next s) ∧
    (∀ (s : State) (a : HostAccess) (rest : List HostAccess), s.pending = a :: rest →
      step s = serve a { s with pending := rest, draws := s.draws + 1 } ∧
        ∀ t, step s = .next t → t.pending = rest ∧ t.draws = s.draws + 1)

/-! ## Command words -/

/-- 30_encoding.md R71: a few words and what they decode to (opcode map and reserved words, written out). -/
def Obligations.CommandWordSamples : Prop :=
  decode 0b00000000000000000000000000000001#32 = .ok .bldhdr ∧
    decode 0b00000000000000000000000000000010#32 = .ok .redpal ∧
    decode 0b00000000000000000000000000000011#32 = .ok .packpx ∧
    decode 0b00000000000000000000000000000100#32 = .ok .encode ∧
    decode 0x00000000#32 = .error .reservedWord ∧ decode 0x00000005#32 = .error .reservedWord ∧
    decode 0x00000101#32 = .error .reservedWord ∧ decode 0x80000004#32 = .error .reservedWord

/-- 30_encoding.md R70, R72: a word is a command exactly when bits 31:8 are zero and bits 7:0 are 1 to 4; every other word is
reserved. -/
def Obligations.ReservedWordsAreAllOthers : Prop :=
  ∀ w : Word, ((∃ i, decode w = .ok i) ↔ w.extractLsb' 8 24 = 0 ∧ 1 ≤ (w.extractLsb' 0 8).toNat ∧ (w.extractLsb' 0 8).toNat ≤ 4) ∧
    ((∀ i, decode w ≠ .ok i) ↔ decode w = .error .reservedWord)

/-- Decoding and encoding agree on bytes, in both directions and with anything after the command (30_encoding.md R70, R71,
R74; the byte order of a command word is 20_memory.md R53, log entry 19). -/
def Obligations.DecodeEncodeAgree : Prop :=
  (∀ (i : Instr) (rest : List Byte), wfInstr i = true → decodeBytes (encodeBytes i ++ rest) = .ok (i, rest)) ∧
    (∀ (bytes rest : List Byte) (i : Instr), decodeBytes bytes = .ok (i, rest) → bytes = encodeBytes i ++ rest)

/-- 30_encoding.md R74: the outcome of a host write of any word to CMD, in any state. -/
def Obligations.CmdWriteOutcome : Prop :=
  ∀ (s : State) (w : Word),
    if w = 0x00000001 then serve (commandAccess w) s = exec .bldhdr s
    else if w = 0x00000002 then serve (commandAccess w) s = exec .redpal s
    else if w = 0x00000003 then serve (commandAccess w) s = exec .packpx s
    else if w = 0x00000004 then serve (commandAccess w) s = exec .encode s
    else serve (commandAccess w) s = .next (raise .illegalCommand s)

/-- 60_exceptions.md R157 and 30_encoding.md R72: a reserved word runs no operation: OUT_LEN is 0, STATUS is 0x43, no byte of
OUT is specified, and the inputs are as they were. -/
def Obligations.ReservedWordRaisesIllegalCommand : Prop :=
  ∀ (s : State) (w : Word), w ≠ 0x00000001 → w ≠ 0x00000002 → w ≠ 0x00000003 → w ≠ 0x00000004 →
    ∃ t, serve (commandAccess w) s = .next t ∧ t.outLen = 0 ∧ t.status = 0x00000043 ∧ SameInputs s t ∧ OutUnspecified t

/-! ## BLDHDR -/

/-- 40_header_builder.md R100 and R101: in every state BLDHDR succeeds, and its result is the 12 bytes of the header, whatever
WIDTH and HEIGHT hold. -/
def Obligations.BldhdrWritesHeader : Prop :=
  ∀ s : State, ∃ t, exec .bldhdr s = .next t ∧ t.status = 0x00000001 ∧ t.outLen = 12 ∧
    resultBytes t = [0x03, 0x03, 0x10, 0x00, s.width.extractLsb' 0 8, s.width.extractLsb' 8 8,
      s.height.extractLsb' 0 8, s.height.extractLsb' 8 8, 0x00, 0x00, 0x00, 0x00]

/-- 40_header_builder.md R102: the laws of BLDHDR: 12 bytes, ten of them in fixed positions with fixed values, the dimensions
read back by MemRead, the result injective in them, and nothing else read. -/
def Obligations.BldhdrLaws : Prop :=
  ∀ s : State, ∃ t, exec .bldhdr s = .next t ∧ (resultBytes t).length = 12 ∧
    (resultBytes t).take 4 = [0x03, 0x03, 0x10, 0x00] ∧ (resultBytes t).drop 8 = [0x00, 0x00, 0x00, 0x00] ∧
    memRead t 4 2 = s.width.toNat ∧ memRead t 6 2 = s.height.toNat ∧
    ∀ s' : State, ∃ t', exec .bldhdr s' = .next t' ∧
      (resultBytes t' = resultBytes t ↔ s'.width = s.width ∧ s'.height = s.height)

/-! ## REDPAL -/

/-- 41_palette_reducer.md R110, 30_encoding.md R79: `rgb565` is the formula, its fields are the top bits of the components,
its value is the stated sum, and which triples share a value. -/
def Obligations.Rgb565Fields : Prop :=
  ∀ r g b : Byte,
    rgb565 r g b = ((r &&& 0xF8).setWidth 16 <<< 8) ||| ((g &&& 0xFC).setWidth 16 <<< 3) ||| ((b &&& 0xF8).setWidth 16 >>> 3) ∧
      rgb565 r g b = r.extractLsb' 3 5 ++ g.extractLsb' 2 6 ++ b.extractLsb' 3 5 ∧
      (rgb565 r g b).toNat = 2048 * (r.toNat / 8) + 32 * (g.toNat / 4) + b.toNat / 8 ∧
      ∀ r' g' b' : Byte, (rgb565 r g b = rgb565 r' g' b' ↔
        r.extractLsb' 3 5 = r'.extractLsb' 3 5 ∧ g.extractLsb' 2 6 = g'.extractLsb' 2 6 ∧ b.extractLsb' 3 5 = b'.extractLsb' 3 5)

/-- 41_palette_reducer.md R114: truncation is idempotent, and an aligned entry is read back from its RGB565 value. -/
def Obligations.Rgb565Idempotent : Prop :=
  (∀ r g b : Byte, rgb565 (r &&& 0xF8) (g &&& 0xFC) (b &&& 0xF8) = rgb565 r g b) ∧
    (∀ r g b : Byte, r &&& 0x07 = 0 → g &&& 0x03 = 0 → b &&& 0x07 = 0 →
      r = ((rgb565 r g b).extractLsb' 11 5).setWidth 8 <<< 3 ∧ g = ((rgb565 r g b).extractLsb' 5 6).setWidth 8 <<< 2 ∧
        b = ((rgb565 r g b).extractLsb' 0 5).setWidth 8 <<< 3)

/-- 41_palette_reducer.md R111, 30_encoding.md R78: in every state REDPAL succeeds with 32 bytes; slot `i` holds the
little-endian RGB565 value of entry `i` below `min(16, PAL_LEN)` and `00 00` from there on. -/
def Obligations.RedpalWritesPalette : Prop :=
  ∀ s : State, ∃ t, exec .redpal s = .next t ∧ t.status = 0x00000001 ∧ t.outLen = 32 ∧
    ∀ i : Fin 16,
      if i.val < min 16 s.palLen.toNat then
        memRead t (2 * i.val) 2 = (rgb565 (palR (palAt s i)) (palG (palAt s i)) (palB (palAt s i))).toNat
      else outByte t (2 * i.val) = 0x00 ∧ outByte t (2 * i.val + 1) = 0x00

/-- 41_palette_reducer.md R112: slots from `min(16, PAL_LEN)` on are `00 00`, the result has 32 bytes for every PAL_LEN, all
zero when PAL_LEN is 0, and an entry at or above PAL_LEN has no influence on it. -/
def Obligations.RedpalPadsUnusedSlots : Prop :=
  ∀ s s' : State, s'.palLen = s.palLen →
    (∀ i : Fin 16, i.val < s.palLen.toNat → palAt s' i = palAt s i) →
      ∃ t t', exec .redpal s = .next t ∧ exec .redpal s' = .next t' ∧ (resultBytes t).length = 32 ∧
        (∀ i : Fin 16, min 16 s.palLen.toNat ≤ i.val → memRead t (2 * i.val) 2 = 0) ∧
        resultBytes t' = resultBytes t ∧ (s.palLen = 0 → resultBytes t = List.replicate 32 0x00)

/-- 41_palette_reducer.md R113: for every PAL_LEN from 16 up REDPAL behaves as for PAL_LEN = 16 and succeeds. (Both run with
the same draws for unwritten entries.) -/
def Obligations.RedpalUsesFirstSixteen : Prop :=
  ∀ s : State, 16 ≤ s.palLen.toNat → ∃ t t', exec .redpal s = .next t ∧
    exec .redpal { s with palLen := 16 } = .next t' ∧ t.status = 0x00000001 ∧ t'.status = 0x00000001 ∧
    t.outLen = t'.outLen ∧ resultBytes t = resultBytes t'

/-! ## PACKPX -/

/-- 42_pixel_packer.md R120: on inputs of at most 15 `pack` is `16*p1 + p2`, the nibbles are the inputs, and every byte is the
`pack` of its nibbles. -/
def Obligations.PackIsBijection : Prop :=
  (∀ p1 p2 : Nat, p1 ≤ 15 → p2 ≤ 15 → (packByte p1 p2).toNat = 16 * p1 + p2 ∧
      ((packByte p1 p2).extractLsb' 4 4).toNat = p1 ∧ ((packByte p1 p2).extractLsb' 0 4).toNat = p2) ∧
    (∀ b : Byte, packByte (b.extractLsb' 4 4).toNat (b.extractLsb' 0 4).toNat = b)

/-- 42_pixel_packer.md R122 to R125: PACKPX in every state: an odd width first, then an index above 15, else the packed bytes,
pair `c` of row `y` at byte `y*(w/2) + c`. -/
def Obligations.PackpxOutcome : Prop :=
  ∀ s : State,
    (s.width.getLsbD 0 = true →
      ∃ t, exec .packpx s = .next t ∧ t.outLen = 0 ∧ t.status = 0x00000023 ∧ OutUnspecified t) ∧
    (s.width.getLsbD 0 = false → (∃ x y, x < s.width.toNat ∧ y < s.height.toNat ∧ 15 < pixAt s x y) →
      ∃ t, exec .packpx s = .next t ∧ t.outLen = 0 ∧ t.status = 0x00000013 ∧ OutUnspecified t) ∧
    (s.width.getLsbD 0 = false → (∀ x y, x < s.width.toNat → y < s.height.toNat → pixAt s x y ≤ 15) →
      ∃ t, exec .packpx s = .next t ∧ t.outLen.toNat = s.width.toNat * s.height.toNat / 2 ∧ t.status = 0x00000001 ∧
        ∀ y c, y < s.height.toNat → c < s.width.toNat / 2 →
          (outByte t (y * (s.width.toNat / 2) + c)).toNat = 16 * pixAt s (2 * c) y + pixAt s (2 * c + 1) y)

/-- 42_pixel_packer.md R121: output byte number `k` of a successful PACKPX is the byte of row `k / (w/2)` and pair
`k % (w/2)`. -/
def Obligations.PackedByteOrder : Prop :=
  ∀ s : State, s.width.getLsbD 0 = false → PixelsInRange s → ∃ t, exec .packpx s = .next t ∧
    ∀ k, k < s.width.toNat * s.height.toNat / 2 →
      k / (s.width.toNat / 2) < s.height.toNat ∧
      outByte t k = packByte (pixAt s (2 * (k % (s.width.toNat / 2))) (k / (s.width.toNat / 2)))
        (pixAt s (2 * (k % (s.width.toNat / 2)) + 1) (k / (s.width.toNat / 2)))

/-- 42_pixel_packer.md R126: a successful PACKPX has exactly `width*height/2` bytes, at most 2,147,385,345; an image with no
pixel and an even width packs to nothing, with success. -/
def Obligations.PackpxLengths : Prop :=
  (∀ s t : State, exec .packpx s = .next t → t.status = 0x00000001 →
      s.width.toNat % 2 = 0 ∧ t.outLen.toNat = s.width.toNat * s.height.toNat / 2 ∧
        t.outLen.toNat = s.height.toNat * (s.width.toNat / 2) ∧ t.outLen.toNat ≤ 2147385345) ∧
    (∀ s : State, s.width.toNat = 0 ∨ (s.width.toNat % 2 = 0 ∧ s.height.toNat = 0) →
      ∃ t, exec .packpx s = .next t ∧ t.outLen = 0 ∧ t.status = 0x00000001 ∧ resultReady t = true)

/-- 42_pixel_packer.md R127: PACKPX depends on WIDTH, HEIGHT and the cells of the rectangle alone: not on PAL_LEN, not on
PAL_IN, not on a cell outside. -/
def Obligations.PackpxReadsImageOnly : Prop :=
  ∀ s s' : State, s'.width = s.width → s'.height = s.height →
    (∀ x y, x < s.width.toNat → y < s.height.toNat → pixAt s' x y = pixAt s x y) →
      ∃ t t', exec .packpx s = .next t ∧ exec .packpx s' = .next t' ∧ SameOutputs t t'

/-! ## ENCODE -/

/-- 43_image_encoder.md R135, R136 and 20_memory.md R60: ENCODE in every state: palette overflow first, then an odd width, then
an index above 15, else the encoded image at its offsets. -/
def Obligations.EncodeOutcome : Prop :=
  ∀ s : State,
    (16 < s.palLen.toNat ∨ 16 < (usedSet s).card →
      ∃ t, exec .encode s = .next t ∧ t.outLen = 0 ∧ t.status = 0x00000033 ∧ OutUnspecified t) ∧
    (s.palLen.toNat ≤ 16 → (usedSet s).card ≤ 16 →
      (s.width.getLsbD 0 = true →
        ∃ t, exec .encode s = .next t ∧ t.outLen = 0 ∧ t.status = 0x00000023 ∧ OutUnspecified t) ∧
      (s.width.getLsbD 0 = false → (∃ x y, x < s.width.toNat ∧ y < s.height.toNat ∧ 15 < pixAt s x y) →
        ∃ t, exec .encode s = .next t ∧ t.outLen = 0 ∧ t.status = 0x00000013 ∧ OutUnspecified t) ∧
      (s.width.getLsbD 0 = false → (∀ x y, x < s.width.toNat → y < s.height.toNat → pixAt s x y ≤ 15) →
        ∃ t, exec .encode s = .next t ∧ t.outLen.toNat = 44 + s.width.toNat * s.height.toNat / 2 ∧
          t.status = 0x00000001 ∧ outByte t 0 = 0x03 ∧ outByte t 1 = 0x03 ∧ memRead t 2 2 = 16 ∧
          memRead t 4 2 = s.width.toNat ∧ memRead t 6 2 = s.height.toNat ∧ memRead t 8 4 = 0 ∧
          (∀ i : Fin 16, memRead t (12 + 2 * i.val) 2 =
            if i.val < s.palLen.toNat then (rgb565 (palR (palAt s i)) (palG (palAt s i)) (palB (palAt s i))).toNat else 0) ∧
          (∀ y c, y < s.height.toNat → c < s.width.toNat / 2 →
            (outByte t (44 + y * (s.width.toNat / 2) + c)).toNat = 16 * pixAt s (2 * c) y + pixAt s (2 * c + 1) y)))

/-- 43_image_encoder.md R137: PaletteOverflowError has exactly the stated cause, and no other command raises it. -/
def Obligations.PaletteOverflowCause : Prop :=
  ∀ s : State,
    ((∃ t, exec .encode s = .next t ∧ t.status = 0x00000033) ↔ 16 < s.palLen.toNat ∨ 16 < (usedSet s).card) ∧
      ∀ (i : Instr) (t : State), exec i s = .next t → t.status = 0x00000033 → i = .encode

/-- 43_image_encoder.md R136: more than 16 distinct values force an index above 15, so the palette overflow then wins over
the range error that PACKPX reports. -/
def Obligations.OverflowForcesRange : Prop :=
  ∀ s : State, 16 < (usedSet s).card → s.width.toNat % 2 = 0 →
    ∃ t t', exec .encode s = .next t ∧ t.status = 0x00000033 ∧ exec .packpx s = .next t' ∧ t'.status = 0x00000013

/-- 43_image_encoder.md R138: ENCODE is BLDHDR ∥ REDPAL ∥ PACKPX; with at most 16 entries declared and at most 16 values used
it ends as PACKPX does, in success or with the same error. (All four run from the same state with the same draws.) -/
def Obligations.EncodeComposesCommands : Prop :=
  ∀ s : State, ∃ tb tr tp te, exec .bldhdr s = .next tb ∧ exec .redpal s = .next tr ∧ exec .packpx s = .next tp ∧
    exec .encode s = .next te ∧
    (te.status = 0x00000001 → tp.status = 0x00000001 ∧ resultBytes te = resultBytes tb ++ resultBytes tr ++ resultBytes tp ∧
      (resultBytes tb).length = 12 ∧ (resultBytes tr).length = 32 ∧
        (resultBytes tp).length = s.width.toNat * s.height.toNat / 2) ∧
    (s.palLen.toNat ≤ 16 → (usedSet s).card ≤ 16 → te.status = tp.status)

/-- 43_image_encoder.md R139: OUT_LEN after a successful ENCODE, and its bounds. -/
def Obligations.EncodeLengths : Prop :=
  ∀ s t : State, exec .encode s = .next t → t.status = 0x00000001 →
    t.outLen.toNat = 44 + s.width.toNat * s.height.toNat / 2 ∧ 44 ≤ t.outLen.toNat ∧ t.outLen.toNat ≤ 2147385389 ∧
      (resultBytes t).length = 12 + 32 + s.width.toNat * s.height.toNat / 2

/-- 43_image_encoder.md R140: an index at or above PAL_LEN but at most 15 is packed as it stands: whether ENCODE succeeds, its
header and its pixels are the same for every PAL_LEN of at most 16. (Both run with the same draws.) -/
def Obligations.EncodeIgnoresPaletteLength : Prop :=
  ∀ (s : State) (n : Half), s.palLen.toNat ≤ 16 → n.toNat ≤ 16 →
    ∃ t t', exec .encode s = .next t ∧ exec .encode { s with palLen := n } = .next t' ∧ t'.status = t.status ∧
      t'.outLen = t.outLen ∧ ∀ a, (a < 12 ∨ 44 ≤ a) → outByte t' a = outByte t a

/-- 43_image_encoder.md R141: with a zero dimension, an even width and at most 16 palette entries ENCODE gives the 44 bytes of
header and palette; with an odd width and HEIGHT = 0 it raises OddWidthError. -/
def Obligations.EncodeZeroDimensions : Prop :=
  (∀ s : State, s.palLen.toNat ≤ 16 → s.width.toNat = 0 ∨ (s.width.toNat % 2 = 0 ∧ s.height.toNat = 0) →
      ∃ t tb tr, exec .encode s = .next t ∧ exec .bldhdr s = .next tb ∧ exec .redpal s = .next tr ∧
        t.status = 0x00000001 ∧ t.outLen = 44 ∧ resultBytes t = resultBytes tb ++ resultBytes tr) ∧
    (∀ s : State, s.palLen.toNat ≤ 16 → s.width.toNat % 2 = 1 → s.height.toNat = 0 →
      ∃ t, exec .encode s = .next t ∧ t.status = 0x00000023 ∧ t.outLen = 0)

/-- 42_pixel_packer.md R130 with the reference decoder of R129: in every state in which ENCODE succeeds, `unpack` of the result
returns WIDTH, HEIGHT and every pixel index. An unwritten cell counts with the one value that this command's reads of it give,
which is the model's inference (log entry 5). -/
def Obligations.EncodeRoundTrip : Prop :=
  ∀ s t : State, exec .encode s = .next t → t.status = 0x00000001 →
    unpack (resultBytes t) = (s.width.toNat, s.height.toNat, sourceGrid s)

/-- A valid image in the document's sense encodes: no error, every index of the grid below PAL_LEN (70_reset_and_hazards.md
R177, 43_image_encoder.md R140). -/
def Obligations.ValidImageEncodes : Prop :=
  ∀ s : State, ValidImage s → ∃ t, exec .encode s = .next t ∧ t.status = 0x00000001 ∧ resultReady t = true ∧
    (unpack (resultBytes t)).2.2 = sourceGrid s ∧ ∀ row ∈ sourceGrid s, ∀ v ∈ row, v < s.palLen.toNat

/-! ## All commands -/

/-- 10_state.md R35: the frame of every command: WIDTH, HEIGHT, PAL_LEN, PAL_IN and PIX, every cell of it, are as they were.
(Of OUT no byte is promised to stay: 20_memory.md R68, the statement OutBeyondLengthIsFree.) -/
def Obligations.CommandsKeepInputs : Prop :=
  ∀ (i : Instr) (s t : State), exec i s = .next t → SameInputs s t

/-- The frame of every command on the model's own fields (log entries 1, 3, 4 and 9): the host's side of the port and the
parameter `IDX_W` are as they were. -/
def Obligations.CommandsKeepHostSide : Prop :=
  ∀ (i : Instr) (s t : State), exec i s = .next t → SameHostSide s t

/-- 60_exceptions.md R152: `raise` leaves OUT_LEN 0, STATUS with DONE = 1, ERR = 1 and the error's code (R151), the inputs as
they were and every byte of OUT unspecified. -/
def Obligations.RaiseReportsErrorOnly : Prop :=
  ∀ (e : CommandError) (s : State), (raise e s).outLen = 0 ∧ statusDone (raise e s).status = true ∧
    statusErr (raise e s).status = true ∧ SameInputs s (raise e s) ∧ OutUnspecified (raise e s) ∧
    (raise e s).status = (match e with
      | .pixelRange => 0x00000013
      | .oddWidth => 0x00000023
      | .paletteOverflow => 0x00000033
      | .illegalCommand => 0x00000043)

/-- 70_reset_and_hazards.md R184: every command terminates, for every state of the inputs, with STATUS.DONE set. -/
def Obligations.CommandsTerminate : Prop :=
  ∀ (i : Instr) (s : State), ∃ t, exec i s = .next t ∧ statusDone t.status = true

/-- 10_state.md R32: no command's behaviour depends on STATUS, nor on OUT_LEN or OUT: a command after a failed one runs exactly
as after a successful one. -/
def Obligations.CommandsIgnoreEarlierOutcome : Prop :=
  ∀ (i : Instr) (s s' : State), SameInputs s s' → SameHostSide s s' → exec i s' = exec i s

/-- 60_exceptions.md R151, R152 and R158: which STATUS each command can leave; success has code 0 and no ERR; a failure leaves
OUT_LEN 0 and no specified byte of OUT. -/
def Obligations.StatusOfEachCommand : Prop :=
  ∀ (i : Instr) (s t : State), exec i s = .next t →
    (match i with
      | .bldhdr => t.status = 0x01
      | .redpal => t.status = 0x01
      | .packpx => t.status = 0x01 ∨ t.status = 0x13 ∨ t.status = 0x23
      | .encode => t.status = 0x01 ∨ t.status = 0x13 ∨ t.status = 0x23 ∨ t.status = 0x33) ∧
      (statusErr t.status = false → statusErrCode t.status = 0) ∧
      (statusErr t.status = true → t.outLen = 0 ∧ OutUnspecified t)

/-- 60_exceptions.md R153: a commit leaves the bytes at OUT from 0, OUT_LEN their number and STATUS 0x01, whatever STATUS was;
the inputs are unchanged. -/
def Obligations.CommitLeavesResult : Prop :=
  ∀ (buf : List Byte) (s : State), buf.length < 2 ^ 32 →
    resultBytes (commit buf s) = buf ∧ (commit buf s).outLen.toNat = buf.length ∧ (commit buf s).status = 0x00000001 ∧
      SameInputs s (commit buf s)

/-- 20_memory.md R68 and 10_state.md R29: after a command every byte of the result is defined, and every byte at OUT_LEN or
above is a free draw at every read. -/
def Obligations.OutBeyondLengthIsFree : Prop :=
  ∀ (i : Instr) (s t : State), exec i s = .next t → ∀ d a : Nat,
    (a < t.outLen.toNat → outByte { t with draws := d } a = outByte t a) ∧
      (t.outLen.toNat ≤ a → outByte { t with draws := d } a = Config.freeOut d a)

/-- 10_state.md R37, 70_reset_and_hazards.md R177: when the host has written every input a command reads, no free value has any
influence: any draws give the same next state. -/
def Obligations.WrittenInputsFixResult : Prop :=
  ∀ (i : Instr) (s : State), InputsWritten i s → ∃ t, exec i s = .next t ∧
    ∀ d : Nat, exec i { s with draws := d } = .next { t with draws := d }

/-! ## Host accesses -/

/-- 20_memory.md R59: the CSR map: the six registers and sixteen entries stand at their offsets, and no other offset names a
register. -/
def Obligations.CsrMap : Prop :=
  csrOffset .cmd = 0x00 ∧ csrOffset .status = 0x04 ∧ csrOffset .width = 0x08 ∧ csrOffset .height = 0x0C ∧
    csrOffset .palLen = 0x10 ∧ csrOffset .outLen = 0x14 ∧
    (∀ i : Fin 16, (csrOffset (.palIn i)).toNat = 0x40 + 4 * i.val) ∧
    ∀ (o : BitVec 8) (r : CsrReg), csrReg? o = some r ↔ csrOffset r = o

/-- 20_memory.md R55: a CSR access that is not 32 bits wide, not at a multiple of 4 or at a reserved offset has no move, and
every other one has. -/
def Obligations.MalformedCsrAccessRefused : Prop :=
  ∀ (s : State) (z : AccessSize) (o : BitVec 8) (d : Word),
    if z ≠ .word ∨ o.toNat % 4 ≠ 0 ∨ (0x18 ≤ o.toNat ∧ o.toNat ≤ 0x3F) ∨ 0x80 ≤ o.toNat then
      serve (.csrWrite z o d) s = .refused .malformedCsrAccess ∧ serve (.csrRead z o) s = .refused .malformedCsrAccess
    else (∃ t, serve (.csrWrite z o d) s = .next t) ∧ ∃ t, serve (.csrRead z o) s = .next t

/-- 10_state.md R21 to R23: a write of WIDTH, HEIGHT or PAL_LEN stores bits 15:0 and changes no other register or space, and
the next read gives them back with the upper bits zero. -/
def Obligations.OperandRegistersReadBack : Prop :=
  ∀ (s : State) (d : Word) (rest : List HostAccess),
    (s.pending = wrAccess .width d :: .csrRead .word (csrOffset .width) :: rest → ∃ t u, step s = .next t ∧
      t = { s with width := d.extractLsb' 0 16, pending := t.pending, draws := t.draws } ∧ step t = .next u ∧
      u.lastRead = some (d &&& 0x0000FFFF)) ∧
    (s.pending = wrAccess .height d :: .csrRead .word (csrOffset .height) :: rest → ∃ t u, step s = .next t ∧
      t = { s with height := d.extractLsb' 0 16, pending := t.pending, draws := t.draws } ∧ step t = .next u ∧
      u.lastRead = some (d &&& 0x0000FFFF)) ∧
    (s.pending = wrAccess .palLen d :: .csrRead .word (csrOffset .palLen) :: rest → ∃ t u, step s = .next t ∧
      t = { s with palLen := d.extractLsb' 0 16, pending := t.pending, draws := t.draws } ∧ step t = .next u ∧
      u.lastRead = some (d &&& 0x0000FFFF))

/-- 10_state.md R27: a write of `PAL_IN[i]` stores `r`, `g`, `b` from bits 23:16, 15:8 and 7:0, leaves every other written entry
as it was, and reads back with the upper byte zero. -/
def Obligations.PaletteEntryReadsBack : Prop :=
  ∀ (s : State) (i : Fin 16) (d : Word) (rest : List HostAccess),
    s.pending = wrAccess (.palIn i) d :: .csrRead .word (csrOffset (.palIn i)) :: rest → ∃ t u, step s = .next t ∧
      palR (palAt t i) = d.extractLsb' 16 8 ∧ palG (palAt t i) = d.extractLsb' 8 8 ∧ palB (palAt t i) = d.extractLsb' 0 8 ∧
      (∀ j, j ≠ i → t.palWritten.getLsbD j = s.palWritten.getLsbD j ∧ t.palIn[j] = s.palIn[j]) ∧
      t.width = s.width ∧ t.height = s.height ∧ t.palLen = s.palLen ∧ t.pix = s.pix ∧ SameOutputs s t ∧
      step t = .next u ∧ u.lastRead = some (d &&& 0x00FFFFFF)

/-- 10_state.md R28, 20_memory.md R58: a PIX write of a value that fits a cell only stores it: that cell reads as the value, every
other cell and everything else of the block is as it was. -/
def Obligations.PixelWriteStores : Prop :=
  ∀ (s : State) (x y : Half) (v : Nat) (rest : List HostAccess), s.pending = .pixWrite x y v :: rest →
    v < 2 ^ s.idxW → ∃ t, step s = .next t ∧ pixAt t x.toNat y.toNat = v ∧
      (∀ x' y' : Half, (x', y') ≠ (x, y) →
        cellAt t.pix (pixKey x'.toNat y'.toNat) = cellAt s.pix (pixKey x'.toNat y'.toNat)) ∧
      t = { s with pix := t.pix, pending := t.pending, draws := t.draws }

/-- A PIX write of a value that does not fit a cell of `IDX_W` bits is refused: the model's choice (log entry 10), since no
host can present one (10_state.md R28). -/
def Obligations.PixelValueTooWideRefused : Prop :=
  ∀ (s : State) (x y : Half) (v : Nat) (rest : List HostAccess), s.pending = .pixWrite x y v :: rest →
    2 ^ s.idxW ≤ v → step s = .refused .pixelValueTooWide

/-- 10_state.md R28: in every state that meets the invariant a pixel index has `IDX_W` bits, written or not, so an image uses at
most `2^IDX_W` values; and `IDX_W` is at least 4 (00_scope.md R7). -/
def Obligations.IndexWidthBoundsValues : Prop :=
  ∀ s : State, State.Inv s → (∀ x y : Nat, pixAt s x y < 2 ^ s.idxW) ∧ (usedSet s).card ≤ 2 ^ s.idxW ∧
    16 ≤ 2 ^ s.idxW

/-- 20_memory.md R58: every read changes nothing of the block, and writes of STATUS and OUT_LEN are ignored. -/
def Obligations.ReadsAndReadOnlyWritesChangeNothing : Prop :=
  ∀ (s : State) (a : HostAccess) (rest : List HostAccess), s.pending = a :: rest →
    ((∃ r, a = .csrRead .word (csrOffset r)) ∨ (∃ addr z, a = .outRead addr z) ∨
        (∃ d, a = wrAccess .status d) ∨ ∃ d, a = wrAccess .outLen d) →
      ∃ t, step s = .next t ∧ SameInputs s t ∧ SameOutputs s t

/-- 10_state.md R25 and 20_memory.md R58: only a CMD write and reset change STATUS, OUT_LEN or OUT. -/
def Obligations.OnlyCommandsAndResetWriteOutputs : Prop :=
  ∀ (s t : State) (a : HostAccess) (rest : List HostAccess), s.pending = a :: rest → step s = .next t →
    (∀ w, a ≠ commandAccess w) → a ≠ .reset → SameOutputs s t

/-- 10_state.md R24, R25 and R26: a host read of CMD returns 0, of STATUS and OUT_LEN the register. -/
def Obligations.ResultRegistersRead : Prop :=
  ∀ (s : State) (rest : List HostAccess),
    (s.pending = .csrRead .word 0x00 :: rest → ∃ t, step s = .next t ∧ t.lastRead = some 0) ∧
      (s.pending = .csrRead .word 0x04 :: rest → ∃ t, step s = .next t ∧ t.lastRead = some s.status) ∧
      (s.pending = .csrRead .word 0x14 :: rest → ∃ t, step s = .next t ∧ t.lastRead = some s.outLen)

/-- 20_memory.md R52: MemRead of what MemWrite stored, below OUT_LEN, gives the value back, and MemWrite leaves every other
byte as it was; byte `k` holds `v[8k+7:8k]`. -/
def Obligations.MemReadAfterMemWrite : Prop :=
  ∀ (s : State) (addr n v : Nat), n = 1 ∨ n = 2 ∨ n = 4 → v < 2 ^ (8 * n) → addr + n ≤ s.outLen.toNat →
    memRead { s with out := memWrite s.out addr n v } addr n = v ∧
      (∀ k, k < n → (outByte { s with out := memWrite s.out addr n v } (addr + k)).toNat = v / 2 ^ (8 * k) % 256) ∧
      ∀ a, a < addr ∨ addr + n ≤ a → outByte { s with out := memWrite s.out addr n v } a = outByte s a

/-- 20_memory.md R54: a host read of 1, 2 or 4 bytes at any address of OUT completes and returns the bytes, assembled
little-endian (zero-extended: log entry 13; bytes past the space are free: log entry 12). -/
def Obligations.OutReadAssemblesBytes : Prop :=
  ∀ (s : State) (addr : Word) (z : AccessSize) (rest : List HostAccess), s.pending = .outRead addr z :: rest →
    ∃ t v, step s = .next t ∧ t.lastRead = some v ∧ v.toNat = memRead { s with draws := s.draws + 1 } addr.toNat (sizeBytes z) ∧
      ∀ k, k < sizeBytes z →
        v.toNat / 2 ^ (8 * k) % 256 = (outByte { s with draws := s.draws + 1 } (addr.toNat + k)).toNat

/-- 70_reset_and_hazards.md R175: reset, at any time: every register zero, PAL_IN, PIX and OUT unspecified. -/
def Obligations.ResetEvent : Prop :=
  ∀ (s : State) (rest : List HostAccess), s.pending = .reset :: rest → ∃ t, step s = .next t ∧
    t.width = 0 ∧ t.height = 0 ∧ t.palLen = 0 ∧ t.status = 0 ∧ t.outLen = 0 ∧ OutUnspecified t ∧
    (∀ (d : Nat) (i : Fin 16), palAt { t with draws := d } i = Config.freePal d i) ∧
    (∀ d x y : Nat, pixAt { t with draws := d } x y = Config.freePix d x y % 2 ^ s.idxW)

/-- 70_reset_and_hazards.md R175: a command that reset follows leaves nothing behind: the block is as if the command had never
been started. That reset during a command equals reset after it is the model's reading (log entry 14). -/
def Obligations.ResetAbandonsCommand : Prop :=
  ∀ (s s' : State) (w : Word) (rest : List HostAccess), s.pending = commandAccess w :: .reset :: rest →
    s'.pending = .reset :: rest → ∃ t u u', step s = .next t ∧ step t = .next u ∧ step s' = .next u' ∧
      SameInputs u' u ∧ SameOutputs u' u

/-! ## Several blocks -/

/-- 60_exceptions.md R165: when block `k` of a platform steps, it steps as it would alone and every other block is as it was.
(That the accesses of all blocks draw free values from one counter is the model's choice, log entry 15.) -/
def Obligations.UnitsAreIndependent : Prop :=
  ∀ (p : Platform) (k : Nat) (s t : State), p.units[k]? = some s → step { s with draws := p.draws } = .next t →
    ∃ p', stepUnit p k = some (.next p') ∧ p'.units.length = p.units.length ∧ p'.units[k]? = some t ∧
      ∀ j, j ≠ k → p'.units[j]? = p.units[j]?

/-! ## Parameters -/

/-- 00_scope.md R7, 10_state.md R34: nothing changes the parameter `IDX_W`: no command and no other access, reset among them.
(That it stands in a field of State is the model's choice, log entry 9.) -/
def Obligations.IndexWidthIsFixed : Prop :=
  ∀ s t : State, step s = .next t → t.idxW = s.idxW

/-- 00_scope.md R7: `N_UNITS` and `IDX_W` are arguments with the defaults 1 and 8, and a platform right after reset has that many
blocks of that width; the reset state is the default block; on an 8-bit block the host can write every index from 0 to 255,
the invalid ones from 16 up among them (10_state.md R28), and on a 4-bit block exactly 0 to 15. -/
def Obligations.ParametersAndDefaults : Prop :=
  State.reset.idxW = 8 ∧ resetBlock = State.reset ∧ resetPlatform.units = [State.reset] ∧
    (∀ nUnits idxW : Nat, (resetPlatform nUnits idxW).units.length = nUnits ∧
      ∀ u ∈ (resetPlatform nUnits idxW).units, u = { State.reset with idxW := idxW }) ∧
    ∀ (s : State) (x y : Half) (v : Nat),
      (s.idxW = 8 → ((∃ t, serve (.pixWrite x y v) s = .next t ∧ pixAt t x.toNat y.toNat = v) ↔ v ≤ 255)) ∧
        (s.idxW = 4 → ((∃ t, serve (.pixWrite x y v) s = .next t ∧ pixAt t x.toNat y.toNat = v) ↔ v ≤ 15))
end

