-- ==== Sys2Proof/Laws/State.lean ====
section
/-! SUPPORT. What each update of the state does to each field: one lemma per field, true by unfolding. -/

namespace Sys2Proof.Machine

@[simp] theorem commit_width (buf : List Byte) (s : State) : (commit buf s).width = s.width := rfl
@[simp] theorem commit_height (buf : List Byte) (s : State) : (commit buf s).height = s.height := rfl
@[simp] theorem commit_palLen (buf : List Byte) (s : State) : (commit buf s).palLen = s.palLen := rfl
@[simp] theorem commit_status (buf : List Byte) (s : State) : (commit buf s).status = statusSuccess := rfl
@[simp] theorem commit_outLen (buf : List Byte) (s : State) : (commit buf s).outLen = BitVec.ofNat 32 buf.length := rfl
@[simp] theorem commit_palIn (buf : List Byte) (s : State) : (commit buf s).palIn = s.palIn := rfl
@[simp] theorem commit_palWritten (buf : List Byte) (s : State) : (commit buf s).palWritten = s.palWritten := rfl
@[simp] theorem commit_pix (buf : List Byte) (s : State) : (commit buf s).pix = s.pix := rfl
@[simp] theorem commit_out (buf : List Byte) (s : State) : (commit buf s).out = storeBytes [] 0 buf := rfl
@[simp] theorem commit_pending (buf : List Byte) (s : State) : (commit buf s).pending = s.pending := rfl
@[simp] theorem commit_lastRead (buf : List Byte) (s : State) : (commit buf s).lastRead = s.lastRead := rfl
@[simp] theorem commit_draws (buf : List Byte) (s : State) : (commit buf s).draws = s.draws := rfl
@[simp] theorem commit_idxW (buf : List Byte) (s : State) : (commit buf s).idxW = s.idxW := rfl

@[simp] theorem raise_width (e : CommandError) (s : State) : (raise e s).width = s.width := rfl
@[simp] theorem raise_height (e : CommandError) (s : State) : (raise e s).height = s.height := rfl
@[simp] theorem raise_palLen (e : CommandError) (s : State) : (raise e s).palLen = s.palLen := rfl
@[simp] theorem raise_status (e : CommandError) (s : State) : (raise e s).status = statusError e := rfl
@[simp] theorem raise_outLen (e : CommandError) (s : State) : (raise e s).outLen = 0 := rfl
@[simp] theorem raise_palIn (e : CommandError) (s : State) : (raise e s).palIn = s.palIn := rfl
@[simp] theorem raise_palWritten (e : CommandError) (s : State) : (raise e s).palWritten = s.palWritten := rfl
@[simp] theorem raise_pix (e : CommandError) (s : State) : (raise e s).pix = s.pix := rfl
@[simp] theorem raise_out (e : CommandError) (s : State) : (raise e s).out = [] := rfl
@[simp] theorem raise_pending (e : CommandError) (s : State) : (raise e s).pending = s.pending := rfl
@[simp] theorem raise_lastRead (e : CommandError) (s : State) : (raise e s).lastRead = s.lastRead := rfl
@[simp] theorem raise_draws (e : CommandError) (s : State) : (raise e s).draws = s.draws := rfl
@[simp] theorem raise_idxW (e : CommandError) (s : State) : (raise e s).idxW = s.idxW := rfl

@[simp] theorem applyReset_width (s : State) : (applyReset s).width = 0 := rfl
@[simp] theorem applyReset_height (s : State) : (applyReset s).height = 0 := rfl
@[simp] theorem applyReset_palLen (s : State) : (applyReset s).palLen = 0 := rfl
@[simp] theorem applyReset_status (s : State) : (applyReset s).status = 0 := rfl
@[simp] theorem applyReset_outLen (s : State) : (applyReset s).outLen = 0 := rfl
@[simp] theorem applyReset_palIn (s : State) : (applyReset s).palIn = Vector.replicate 16 0 := rfl
@[simp] theorem applyReset_palWritten (s : State) : (applyReset s).palWritten = 0 := rfl
@[simp] theorem applyReset_pix (s : State) : (applyReset s).pix = [] := rfl
@[simp] theorem applyReset_out (s : State) : (applyReset s).out = [] := rfl
@[simp] theorem applyReset_pending (s : State) : (applyReset s).pending = s.pending := rfl
@[simp] theorem applyReset_lastRead (s : State) : (applyReset s).lastRead = s.lastRead := rfl
@[simp] theorem applyReset_draws (s : State) : (applyReset s).draws = s.draws := rfl
@[simp] theorem applyReset_idxW (s : State) : (applyReset s).idxW = s.idxW := rfl

@[simp] theorem beginAccess_width (rest : List HostAccess) (s : State) : (beginAccess rest s).width = s.width := rfl
@[simp] theorem beginAccess_height (rest : List HostAccess) (s : State) : (beginAccess rest s).height = s.height := rfl
@[simp] theorem beginAccess_palLen (rest : List HostAccess) (s : State) : (beginAccess rest s).palLen = s.palLen := rfl
@[simp] theorem beginAccess_status (rest : List HostAccess) (s : State) : (beginAccess rest s).status = s.status := rfl
@[simp] theorem beginAccess_outLen (rest : List HostAccess) (s : State) : (beginAccess rest s).outLen = s.outLen := rfl
@[simp] theorem beginAccess_palIn (rest : List HostAccess) (s : State) : (beginAccess rest s).palIn = s.palIn := rfl
@[simp] theorem beginAccess_palWritten (rest : List HostAccess) (s : State) : (beginAccess rest s).palWritten = s.palWritten := rfl
@[simp] theorem beginAccess_pix (rest : List HostAccess) (s : State) : (beginAccess rest s).pix = s.pix := rfl
@[simp] theorem beginAccess_out (rest : List HostAccess) (s : State) : (beginAccess rest s).out = s.out := rfl
@[simp] theorem beginAccess_pending (rest : List HostAccess) (s : State) : (beginAccess rest s).pending = rest := rfl
@[simp] theorem beginAccess_lastRead (rest : List HostAccess) (s : State) : (beginAccess rest s).lastRead = s.lastRead := rfl
@[simp] theorem beginAccess_draws (rest : List HostAccess) (s : State) : (beginAccess rest s).draws = s.draws + 1 := rfl
@[simp] theorem beginAccess_idxW (rest : List HostAccess) (s : State) : (beginAccess rest s).idxW = s.idxW := rfl

@[simp] theorem answerRead_width (v : Word) (s : State) : (answerRead v s).width = s.width := rfl
@[simp] theorem answerRead_height (v : Word) (s : State) : (answerRead v s).height = s.height := rfl
@[simp] theorem answerRead_palLen (v : Word) (s : State) : (answerRead v s).palLen = s.palLen := rfl
@[simp] theorem answerRead_status (v : Word) (s : State) : (answerRead v s).status = s.status := rfl
@[simp] theorem answerRead_outLen (v : Word) (s : State) : (answerRead v s).outLen = s.outLen := rfl
@[simp] theorem answerRead_palIn (v : Word) (s : State) : (answerRead v s).palIn = s.palIn := rfl
@[simp] theorem answerRead_palWritten (v : Word) (s : State) : (answerRead v s).palWritten = s.palWritten := rfl
@[simp] theorem answerRead_pix (v : Word) (s : State) : (answerRead v s).pix = s.pix := rfl
@[simp] theorem answerRead_out (v : Word) (s : State) : (answerRead v s).out = s.out := rfl
@[simp] theorem answerRead_pending (v : Word) (s : State) : (answerRead v s).pending = s.pending := rfl
@[simp] theorem answerRead_lastRead (v : Word) (s : State) : (answerRead v s).lastRead = some v := rfl
@[simp] theorem answerRead_draws (v : Word) (s : State) : (answerRead v s).draws = s.draws := rfl
@[simp] theorem answerRead_idxW (v : Word) (s : State) : (answerRead v s).idxW = s.idxW := rfl

@[simp] theorem writePix_width (x y : Half) (v : Nat) (s : State) : (writePix x y v s).width = s.width := rfl
@[simp] theorem writePix_height (x y : Half) (v : Nat) (s : State) : (writePix x y v s).height = s.height := rfl
@[simp] theorem writePix_palLen (x y : Half) (v : Nat) (s : State) : (writePix x y v s).palLen = s.palLen := rfl
@[simp] theorem writePix_status (x y : Half) (v : Nat) (s : State) : (writePix x y v s).status = s.status := rfl
@[simp] theorem writePix_outLen (x y : Half) (v : Nat) (s : State) : (writePix x y v s).outLen = s.outLen := rfl
@[simp] theorem writePix_palIn (x y : Half) (v : Nat) (s : State) : (writePix x y v s).palIn = s.palIn := rfl
@[simp] theorem writePix_palWritten (x y : Half) (v : Nat) (s : State) : (writePix x y v s).palWritten = s.palWritten := rfl
@[simp] theorem writePix_pix (x y : Half) (v : Nat) (s : State) : (writePix x y v s).pix = putCell s.pix (pixKey x.toNat y.toNat) v := rfl
@[simp] theorem writePix_out (x y : Half) (v : Nat) (s : State) : (writePix x y v s).out = s.out := rfl
@[simp] theorem writePix_pending (x y : Half) (v : Nat) (s : State) : (writePix x y v s).pending = s.pending := rfl
@[simp] theorem writePix_lastRead (x y : Half) (v : Nat) (s : State) : (writePix x y v s).lastRead = s.lastRead := rfl
@[simp] theorem writePix_draws (x y : Half) (v : Nat) (s : State) : (writePix x y v s).draws = s.draws := rfl
@[simp] theorem writePix_idxW (x y : Half) (v : Nat) (s : State) : (writePix x y v s).idxW = s.idxW := rfl

@[simp] theorem writeWidth_width (d : Word) (s : State) : (writeWidth d s).width = d.setWidth 16 := rfl
@[simp] theorem writeWidth_height (d : Word) (s : State) : (writeWidth d s).height = s.height := rfl
@[simp] theorem writeWidth_palLen (d : Word) (s : State) : (writeWidth d s).palLen = s.palLen := rfl
@[simp] theorem writeWidth_status (d : Word) (s : State) : (writeWidth d s).status = s.status := rfl
@[simp] theorem writeWidth_outLen (d : Word) (s : State) : (writeWidth d s).outLen = s.outLen := rfl
@[simp] theorem writeWidth_palIn (d : Word) (s : State) : (writeWidth d s).palIn = s.palIn := rfl
@[simp] theorem writeWidth_palWritten (d : Word) (s : State) : (writeWidth d s).palWritten = s.palWritten := rfl
@[simp] theorem writeWidth_pix (d : Word) (s : State) : (writeWidth d s).pix = s.pix := rfl
@[simp] theorem writeWidth_out (d : Word) (s : State) : (writeWidth d s).out = s.out := rfl
@[simp] theorem writeWidth_pending (d : Word) (s : State) : (writeWidth d s).pending = s.pending := rfl
@[simp] theorem writeWidth_lastRead (d : Word) (s : State) : (writeWidth d s).lastRead = s.lastRead := rfl
@[simp] theorem writeWidth_draws (d : Word) (s : State) : (writeWidth d s).draws = s.draws := rfl
@[simp] theorem writeWidth_idxW (d : Word) (s : State) : (writeWidth d s).idxW = s.idxW := rfl

@[simp] theorem writeHeight_width (d : Word) (s : State) : (writeHeight d s).width = s.width := rfl
@[simp] theorem writeHeight_height (d : Word) (s : State) : (writeHeight d s).height = d.setWidth 16 := rfl
@[simp] theorem writeHeight_palLen (d : Word) (s : State) : (writeHeight d s).palLen = s.palLen := rfl
@[simp] theorem writeHeight_status (d : Word) (s : State) : (writeHeight d s).status = s.status := rfl
@[simp] theorem writeHeight_outLen (d : Word) (s : State) : (writeHeight d s).outLen = s.outLen := rfl
@[simp] theorem writeHeight_palIn (d : Word) (s : State) : (writeHeight d s).palIn = s.palIn := rfl
@[simp] theorem writeHeight_palWritten (d : Word) (s : State) : (writeHeight d s).palWritten = s.palWritten := rfl
@[simp] theorem writeHeight_pix (d : Word) (s : State) : (writeHeight d s).pix = s.pix := rfl
@[simp] theorem writeHeight_out (d : Word) (s : State) : (writeHeight d s).out = s.out := rfl
@[simp] theorem writeHeight_pending (d : Word) (s : State) : (writeHeight d s).pending = s.pending := rfl
@[simp] theorem writeHeight_lastRead (d : Word) (s : State) : (writeHeight d s).lastRead = s.lastRead := rfl
@[simp] theorem writeHeight_draws (d : Word) (s : State) : (writeHeight d s).draws = s.draws := rfl
@[simp] theorem writeHeight_idxW (d : Word) (s : State) : (writeHeight d s).idxW = s.idxW := rfl

@[simp] theorem writePalLen_width (d : Word) (s : State) : (writePalLen d s).width = s.width := rfl
@[simp] theorem writePalLen_height (d : Word) (s : State) : (writePalLen d s).height = s.height := rfl
@[simp] theorem writePalLen_palLen (d : Word) (s : State) : (writePalLen d s).palLen = d.setWidth 16 := rfl
@[simp] theorem writePalLen_status (d : Word) (s : State) : (writePalLen d s).status = s.status := rfl
@[simp] theorem writePalLen_outLen (d : Word) (s : State) : (writePalLen d s).outLen = s.outLen := rfl
@[simp] theorem writePalLen_palIn (d : Word) (s : State) : (writePalLen d s).palIn = s.palIn := rfl
@[simp] theorem writePalLen_palWritten (d : Word) (s : State) : (writePalLen d s).palWritten = s.palWritten := rfl
@[simp] theorem writePalLen_pix (d : Word) (s : State) : (writePalLen d s).pix = s.pix := rfl
@[simp] theorem writePalLen_out (d : Word) (s : State) : (writePalLen d s).out = s.out := rfl
@[simp] theorem writePalLen_pending (d : Word) (s : State) : (writePalLen d s).pending = s.pending := rfl
@[simp] theorem writePalLen_lastRead (d : Word) (s : State) : (writePalLen d s).lastRead = s.lastRead := rfl
@[simp] theorem writePalLen_draws (d : Word) (s : State) : (writePalLen d s).draws = s.draws := rfl
@[simp] theorem writePalLen_idxW (d : Word) (s : State) : (writePalLen d s).idxW = s.idxW := rfl

@[simp] theorem writePal_width (i : Fin 16) (d : Word) (s : State) : (writePal i d s).width = s.width := rfl
@[simp] theorem writePal_height (i : Fin 16) (d : Word) (s : State) : (writePal i d s).height = s.height := rfl
@[simp] theorem writePal_palLen (i : Fin 16) (d : Word) (s : State) : (writePal i d s).palLen = s.palLen := rfl
@[simp] theorem writePal_status (i : Fin 16) (d : Word) (s : State) : (writePal i d s).status = s.status := rfl
@[simp] theorem writePal_outLen (i : Fin 16) (d : Word) (s : State) : (writePal i d s).outLen = s.outLen := rfl
@[simp] theorem writePal_palIn (i : Fin 16) (d : Word) (s : State) : (writePal i d s).palIn = s.palIn.set i (d.setWidth 24) := rfl
@[simp] theorem writePal_palWritten (i : Fin 16) (d : Word) (s : State) : (writePal i d s).palWritten = s.palWritten ||| BitVec.twoPow 16 i := rfl
@[simp] theorem writePal_pix (i : Fin 16) (d : Word) (s : State) : (writePal i d s).pix = s.pix := rfl
@[simp] theorem writePal_out (i : Fin 16) (d : Word) (s : State) : (writePal i d s).out = s.out := rfl
@[simp] theorem writePal_pending (i : Fin 16) (d : Word) (s : State) : (writePal i d s).pending = s.pending := rfl
@[simp] theorem writePal_lastRead (i : Fin 16) (d : Word) (s : State) : (writePal i d s).lastRead = s.lastRead := rfl
@[simp] theorem writePal_draws (i : Fin 16) (d : Word) (s : State) : (writePal i d s).draws = s.draws := rfl
@[simp] theorem writePal_idxW (i : Fin 16) (d : Word) (s : State) : (writePal i d s).idxW = s.idxW := rfl

end Sys2Proof.Machine
end

