-- ==== Sys2Proof/Laws/Memory.lean ====
section
/-! SUPPORT. Sparse spaces: read after write, the canonical form, and the bytes a `commit` stores. -/

namespace Sys2Proof.Machine

variable {α : Type}

/-- A read after a write: the value written at its address, what was there before everywhere else. -/
theorem cellAt_putCell (m : List (Nat × α)) (a b : Nat) (v : α) :
    cellAt (putCell m a v) b = if b = a then some v else cellAt m b := by
  induction m with
  | nil => simp [putCell, cellAt, eq_comm]
  | cons c m ih =>
    obtain ⟨k, u⟩ := c
    simp only [putCell]
    split_ifs with h1 h2 h3 h3 h3 <;> simp only [cellAt, ih]
    all_goals split_ifs <;> first | rfl | omega

theorem mem_putCell {m : List (Nat × α)} {a : Nat} {v : α} {c : Nat × α} (h : c ∈ putCell m a v) :
    c = (a, v) ∨ c ∈ m := by
  induction m with
  | nil => simpa [putCell] using h
  | cons d m ih =>
    obtain ⟨k, u⟩ := d
    simp only [putCell] at h
    split_ifs at h with h1 h2
    · simpa using h
    · simp only [List.mem_cons] at h ⊢
      tauto
    · simp only [List.mem_cons] at h ⊢
      rcases h with rfl | h
      · exact .inr (.inl rfl)
      · rcases ih h with h | h <;> tauto

/-- Writing one cell keeps the canonical form. -/
theorem putCell_wf {m : List (Nat × α)} (h : Memory.wf m) (a : Nat) (v : α) : Memory.wf (putCell m a v) := by
  induction m with
  | nil => simp [putCell]
  | cons c m ih =>
    obtain ⟨k, u⟩ := c
    obtain ⟨hk, hm⟩ := List.pairwise_cons.mp h
    simp only [putCell]
    split_ifs with h1 h2
    · refine List.pairwise_cons.mpr ⟨?_, h⟩
      intro d hd
      rcases List.mem_cons.mp hd with rfl | hd
      · exact h1
      · exact lt_trans h1 (hk d hd)
    · subst h2
      exact List.pairwise_cons.mpr ⟨hk, hm⟩
    · refine List.pairwise_cons.mpr ⟨?_, ih hm⟩
      intro d hd
      rcases mem_putCell hd with rfl | hd
      · show k < a
        omega
      · exact hk d hd

/-- Storing bytes keeps the canonical form. -/
theorem storeBytes_wf (m : List Host.Cell) (a : Nat) (bs : List Byte) (h : Memory.wf m) :
    Memory.wf (storeBytes m a bs) := by
  induction bs generalizing m a with
  | nil => exact h
  | cons b bs ih => exact ih _ _ (putCell_wf h a b)

theorem memWrite_wf (m : List Host.Cell) (a n v : Nat) (h : Memory.wf m) : Memory.wf (memWrite m a n v) :=
  storeBytes_wf m a _ h

/-- What a space lists after a store: the stored bytes in their range, what was there before outside it. -/
theorem cellAt_storeBytes (m : List Host.Cell) (a b : Nat) (bs : List Byte) :
    cellAt (storeBytes m a bs) b = if a ≤ b ∧ b < a + bs.length then bs[b - a]? else cellAt m b := by
  induction bs generalizing m a with
  | nil =>
    have : ¬ (a ≤ b ∧ b < a) := by omega
    simp [storeBytes, this]
  | cons c bs ih =>
    simp only [storeBytes, ih, cellAt_putCell, List.length_cons]
    by_cases h1 : b = a
    · subst h1
      have h2 : ¬ (b + 1 ≤ b) := by omega
      simp
    · by_cases h2 : a ≤ b ∧ b < a + (bs.length + 1)
      · have h3 : a + 1 ≤ b ∧ b < a + 1 + bs.length := by omega
        have h4 : b - a = (b - (a + 1)) + 1 := by omega
        rw [if_pos h2, if_pos h3, h4, List.getElem?_cons_succ]
      · have h3 : ¬ (a + 1 ≤ b ∧ b < a + 1 + bs.length) := by omega
        rw [if_neg h2, if_neg h3, if_neg h1]

/-- Appending at the top of a canonical space. -/
theorem putCell_top (m : List (Nat × α)) (a : Nat) (v : α) (h : ∀ c ∈ m, c.1 < a) :
    putCell m a v = m ++ [(a, v)] := by
  induction m with
  | nil => rfl
  | cons c m ih =>
    obtain ⟨k, u⟩ := c
    have hk : k < a := h (k, u) (by simp)
    have h1 : ¬ a < k := by omega
    have h2 : ¬ a = k := by omega
    simp [putCell, h1, h2, ih (fun d hd => h d (List.mem_cons_of_mem _ hd))]

/-- The addresses that a store above everything listed adds. -/
theorem storeBytes_keys (m : List Host.Cell) (a : Nat) (bs : List Byte) (h : ∀ c ∈ m, c.1 < a) :
    (storeBytes m a bs).map Prod.fst = m.map Prod.fst ++ List.range' a bs.length := by
  induction bs generalizing m a with
  | nil => simp [storeBytes]
  | cons b bs ih =>
    have h' : ∀ c ∈ putCell m a b, c.1 < a + 1 := by
      intro c hc
      rcases mem_putCell hc with rfl | hc
      · exact Nat.lt_succ_self a
      · exact Nat.lt_succ_of_lt (h c hc)
    rw [storeBytes, ih _ _ h', putCell_top m a b h]
    simp [List.range'_succ]

/-- A committed result is defined exactly on the addresses below its length. -/
theorem storeBytes_nil_keys (bs : List Byte) : (storeBytes [] 0 bs).map Prod.fst = List.range bs.length := by
  simpa [List.range_eq_range'] using storeBytes_keys [] 0 bs (by simp)

theorem cellAt_storeBytes_nil (bs : List Byte) (a : Nat) : cellAt (storeBytes [] 0 bs) a = bs[a]? := by
  rw [cellAt_storeBytes]
  split_ifs with h
  · simp
  · simp only [cellAt]
    rw [List.getElem?_eq_none (by omega)]

/-- A read of OUT at OUT_LEN or above draws a free byte (20_memory.md R68). -/
theorem outByte_beyond (s : State) (a : Nat) (h : s.outLen.toNat ≤ a) : outByte s a = Config.freeOut s.draws a := by
  simp [outByte, Nat.not_lt.mpr h]

/-- A read of a committed result of fewer than `2^32` bytes. -/
theorem outByte_commit (buf : List Byte) (s : State) (a : Nat) (hlen : buf.length < 2 ^ 32) :
    outByte (commit buf s) a = buf[a]?.getD (Config.freeOut s.draws a) := by
  simp only [outByte, commit_outLen, commit_out, commit_draws, BitVec.toNat_ofNat, Nat.mod_eq_of_lt hlen,
    cellAt_storeBytes_nil]
  split_ifs with h
  · rfl
  · rw [List.getElem?_eq_none (by omega)]
    rfl

theorem outByte_commit_lt (buf : List Byte) (s : State) (a : Nat) (hlen : buf.length < 2 ^ 32) (ha : a < buf.length) :
    outByte (commit buf s) a = buf[a] := by
  simp [outByte_commit buf s a hlen, List.getElem?_eq_getElem ha]

/-- The result the host reads after a commit is the committed sequence. -/
theorem resultBytes_commit (buf : List Byte) (s : State) (hlen : buf.length < 2 ^ 32) :
    resultBytes (commit buf s) = buf := by
  apply List.ext_getElem?
  intro k
  simp only [resultBytes, outBytes, commit_outLen, BitVec.toNat_ofNat, Nat.mod_eq_of_lt hlen, List.getElem?_map,
    Nat.zero_add]
  by_cases hk : k < buf.length
  · rw [List.getElem?_range hk, Option.map_some, outByte_commit_lt buf s k hlen hk, List.getElem?_eq_getElem hk]
  · rw [List.getElem?_eq_none (by simpa using hk), List.getElem?_eq_none (by omega)]
    rfl

/-- After an error no byte of OUT is specified (60_exceptions.md R152). -/
theorem outByte_raise (e : CommandError) (s : State) (a : Nat) :
    outByte (raise e s) a = Config.freeOut s.draws a := outByte_beyond _ a (by simp)

theorem memRead_two (s : State) (a : Nat) :
    memRead s a 2 = (outByte s a).toNat + 256 * (outByte s (a + 1)).toNat := by
  simp [memRead, outBytes, List.range_succ, leValue]

theorem memRead_four (s : State) (a : Nat) :
    memRead s a 4 = (outByte s a).toNat + 256 * ((outByte s (a + 1)).toNat +
      256 * ((outByte s (a + 2)).toNat + 256 * (outByte s (a + 3)).toNat)) := by
  simp [memRead, outBytes, List.range_succ, leValue]

theorem reset_pix_wf : Memory.wf State.reset.pix := by decide

theorem reset_out_wf : Memory.wf State.reset.out := by decide

end Sys2Proof.Machine
end

