-- ==== Sys2Proof/Laws/Operands.lean ====
section
/-! SUPPORT. What the operand reads are, and on which part of the state each depends. -/

namespace Sys2Proof.Machine

theorem widthOf_lt (s : State) : widthOf s < 65536 := s.width.isLt

theorem heightOf_lt (s : State) : heightOf s < 65536 := s.height.isLt

/-- Bit 0 of WIDTH says whether the width is odd (00_scope.md R11). -/
theorem widthOdd_iff (s : State) : widthOdd s = true ↔ widthOf s % 2 = 1 := by
  simp [widthOdd, widthOf, BitVec.getLsbD, Nat.testBit_zero]

theorem widthOf_even {s : State} (h : widthOdd s = false) : widthOf s % 2 = 0 := by
  have := (widthOdd_iff s).not.1 (by simp [h])
  omega

theorem mem_pixCells (s : State) (v : Nat) :
    v ∈ pixCells s ↔ ∃ x y, x < widthOf s ∧ y < heightOf s ∧ pixAt s x y = v := by
  simp only [pixCells, pixRow, List.mem_flatMap, List.mem_map, List.mem_range]
  constructor
  · rintro ⟨y, hy, x, hx, h⟩
    exact ⟨x, y, hx, hy, h⟩
  · rintro ⟨x, y, hx, hy, h⟩
    exact ⟨y, hy, x, hx, h⟩

/-- The range test of PACKPX finds exactly an index above 15 (42_pixel_packer.md R124). -/
theorem pixelOutOfRange_iff (s : State) :
    pixelOutOfRange s = true ↔ ∃ x y, x < widthOf s ∧ y < heightOf s ∧ 15 < pixAt s x y := by
  simp only [pixelOutOfRange, List.any_eq_true, decide_eq_true_eq, mem_pixCells]
  constructor
  · rintro ⟨v, ⟨x, y, hx, hy, rfl⟩, h⟩
    exact ⟨x, y, hx, hy, h⟩
  · rintro ⟨x, y, hx, hy, h⟩
    exact ⟨_, ⟨x, y, hx, hy, rfl⟩, h⟩

theorem pixelOutOfRange_false {s : State} (h : PixelsInRange s) : pixelOutOfRange s = false := by
  rw [Bool.eq_false_iff, Ne, pixelOutOfRange_iff]
  rintro ⟨x, y, hx, hy, h'⟩
  have := h x y hx hy
  omega

theorem mem_foldr_insert (l : List Nat) (v : Nat) : v ∈ l.foldr List.insert [] ↔ v ∈ l := by
  induction l with
  | nil => simp
  | cons a l ih => simp [ih]

theorem nodup_foldr_insert (l : List Nat) : (l.foldr List.insert []).Nodup := by
  induction l with
  | nil => simp
  | cons a l ih => exact List.Nodup.insert ih

/-- `used` lists the values of the rectangle (43_image_encoder.md R135). -/
theorem mem_usedValues (s : State) (v : Nat) :
    v ∈ usedValues s ↔ ∃ x y, x < widthOf s ∧ y < heightOf s ∧ pixAt s x y = v := by
  rw [usedValues, mem_foldr_insert, mem_pixCells]

theorem nodup_usedValues (s : State) : (usedValues s).Nodup := nodup_foldr_insert _

/-- `used` as a list and as a set have the same size (43_image_encoder.md R137). -/
theorem usedValues_length (s : State) : (usedValues s).length = (usedSet s).card := by
  have h : (usedValues s).toFinset = usedSet s := by
    ext v
    simp only [List.mem_toFinset, mem_usedValues, usedSet, Finset.mem_image, Finset.mem_product, Finset.mem_range,
      Prod.exists]
    constructor
    · rintro ⟨x, y, hx, hy, h⟩
      exact ⟨x, y, ⟨hx, hy⟩, h⟩
    · rintro ⟨x, y, ⟨hx, hy⟩, h⟩
      exact ⟨x, y, hx, hy, h⟩
  rw [← h, List.toFinset_card_of_nodup (nodup_usedValues s)]

/-- The range test of ENCODE is that of PACKPX (43_image_encoder.md R138). -/
theorem used_any_eq (s : State) : (usedValues s).any (fun v => decide (15 < v)) = pixelOutOfRange s := by
  rw [Bool.eq_iff_iff, pixelOutOfRange_iff]
  simp only [List.any_eq_true, decide_eq_true_eq, mem_usedValues]
  constructor
  · rintro ⟨v, ⟨x, y, hx, hy, rfl⟩, h⟩
    exact ⟨x, y, hx, hy, h⟩
  · rintro ⟨x, y, hx, hy, h⟩
    exact ⟨_, ⟨x, y, hx, hy, rfl⟩, h⟩

/-- The distinct count never exceeds the number of values below a bound on all of them. -/
theorem usedSet_card_le (s : State) (n : Nat) (h : ∀ x y, x < widthOf s → y < heightOf s → pixAt s x y < n) :
    (usedSet s).card ≤ n := by
  have hsub : usedSet s ⊆ Finset.range n := by
    intro v hv
    simp only [usedSet, Finset.mem_image, Finset.mem_product, Finset.mem_range, Prod.exists] at hv
    obtain ⟨x, y, ⟨hx, hy⟩, rfl⟩ := hv
    exact Finset.mem_range.mpr (h x y hx hy)
  simpa using Finset.card_le_card hsub

/-- Two states whose images agree have the same cells (42_pixel_packer.md R127). -/
theorem pixCells_congr {s t : State} (hw : t.width = s.width) (hh : t.height = s.height)
    (hp : ∀ x y, x < widthOf s → y < heightOf s → pixAt t x y = pixAt s x y) : pixCells t = pixCells s := by
  have ew : widthOf t = widthOf s := congrArg BitVec.toNat hw
  have eh : heightOf t = heightOf s := congrArg BitVec.toNat hh
  simp only [pixCells, eh]
  refine List.flatMap_congr fun y hy => ?_
  simp only [pixRow, ew]
  exact List.map_congr_left fun x hx => hp x y (List.mem_range.mp hx) (List.mem_range.mp hy)

end Sys2Proof.Machine
end

