-- ==== Sys2Proof/Laws/Commands.lean ====
section
/-! SUPPORT. What each command's byte sequence is, and the one inversion lemma of `exec`. -/

namespace Sys2Proof.Machine

@[simp] theorem headerBytes_length (s : State) : (headerBytes s).length = 12 := by simp [headerBytes]

/-- The header, byte by byte (30_encoding.md R76). -/
theorem headerBytes_eq (s : State) :
    headerBytes s = [0x03, 0x03, 0x10, 0x00, s.width.extractLsb' 0 8, s.width.extractLsb' 8 8,
      s.height.extractLsb' 0 8, s.height.extractLsb' 8 8, 0x00, 0x00, 0x00, 0x00] := by
  simp only [headerBytes, widthOf, heightOf, leBytes_two]
  rfl

/-- A palette slot in use (41_palette_reducer.md R111). -/
theorem slotBytes_used {s : State} {i : Fin 16} (h : i.val < min 16 (palLenOf s)) :
    slotBytes s i = [(reduceEntry (palAt s i)).extractLsb' 0 8, (reduceEntry (palAt s i)).extractLsb' 8 8] := by
  rw [slotBytes, if_pos h, leBytes_two]

/-- A padding slot (41_palette_reducer.md R112). -/
theorem slotBytes_unused {s : State} {i : Fin 16} (h : ¬ i.val < min 16 (palLenOf s)) : slotBytes s i = [0x00, 0x00] :=
  if_neg h

@[simp] theorem slotBytes_length (s : State) (i : Fin 16) : (slotBytes s i).length = 2 := by
  unfold slotBytes
  split_ifs <;> simp

/-- Element `n*a + b` of a concatenation of blocks of `n` bytes is element `b` of block `a`. -/
theorem flatMap_block {α β : Type} (n : Nat) (l : List α) (f : α → List β) (hf : ∀ x ∈ l, (f x).length = n) (a b : Nat)
    (hb : b < n) (ha : a < l.length) : (l.flatMap f)[n * a + b]? = (f l[a])[b]? := by
  induction l generalizing a with
  | nil => simp at ha
  | cons x l ih =>
    have hx : (f x).length = n := hf x (by simp)
    rw [List.flatMap_cons]
    cases a with
    | zero => rw [List.getElem?_append_left (by omega)]; simp
    | succ a =>
      have h1 : (f x).length ≤ n * (a + 1) + b := by rw [hx, Nat.mul_succ]; omega
      have h2 : n * (a + 1) + b - (f x).length = n * a + b := by rw [hx, Nat.mul_succ]; omega
      rw [List.getElem?_append_right h1, h2,
        ih (fun y hy => hf y (List.mem_cons_of_mem _ hy)) a (by simpa using ha)]
      simp

theorem flatMap_length {α β : Type} (n : Nat) (l : List α) (f : α → List β) (hf : ∀ x ∈ l, (f x).length = n) :
    (l.flatMap f).length = l.length * n := by
  induction l with
  | nil => simp
  | cons x l ih =>
    rw [List.flatMap_cons, List.length_append, hf x (by simp), ih (fun y hy => hf y (List.mem_cons_of_mem _ hy)),
      List.length_cons, Nat.succ_mul, Nat.add_comm]

@[simp] theorem paletteBytes_length (s : State) : (paletteBytes s).length = 32 := by
  rw [paletteBytes, flatMap_length 2 _ _ (fun i _ => slotBytes_length s i)]
  simp

/-- Slot `i` of the palette block stands at bytes `2*i` and `2*i + 1` (30_encoding.md R78). -/
theorem paletteBytes_slot (s : State) (i : Fin 16) (k : Nat) (hk : k < 2) :
    (paletteBytes s)[2 * i.val + k]? = (slotBytes s i)[k]? := by
  rw [paletteBytes, flatMap_block 2 _ _ (fun i _ => slotBytes_length s i) i.val k hk (by simp)]
  simp

@[simp] theorem packedRow_length (s : State) (y : Nat) : (packedRow s y).length = widthOf s / 2 := by simp [packedRow]

theorem packedPixels_length_row (s : State) : (packedPixels s).length = heightOf s * (widthOf s / 2) := by
  rw [packedPixels, flatMap_length (widthOf s / 2) _ _ (fun y _ => packedRow_length s y)]
  simp

/-- The packed length of an even width, `width*height/2` (42_pixel_packer.md R126). -/
theorem packedPixels_length (s : State) (h : widthOf s % 2 = 0) : (packedPixels s).length = pixelBytes s := by
  obtain ⟨k, hk⟩ : ∃ k, widthOf s = 2 * k := ⟨widthOf s / 2, by omega⟩
  rw [packedPixels_length_row, pixelBytes, hk, Nat.mul_div_cancel_left _ (by norm_num), Nat.mul_assoc,
    Nat.mul_div_cancel_left _ (by norm_num), Nat.mul_comm]

/-- The largest packed length (00_scope.md R11). -/
theorem packedPixels_length_le (s : State) : (packedPixels s).length ≤ 2147385345 := by
  rw [packedPixels_length_row]
  have h1 : heightOf s ≤ 65535 := by have := heightOf_lt s; omega
  have h2 : widthOf s / 2 ≤ 32767 := by have := widthOf_lt s; omega
  calc heightOf s * (widthOf s / 2) ≤ 65535 * 32767 := Nat.mul_le_mul h1 h2
    _ = 2147385345 := by norm_num

/-- The byte of pair `c` of row `y` is byte `y*(w/2) + c` (42_pixel_packer.md R121). -/
theorem packedPixels_pair (s : State) (y c : Nat) (hy : y < heightOf s) (hc : c < widthOf s / 2) :
    (packedPixels s)[y * (widthOf s / 2) + c]? = some (packByte (pixAt s (2 * c) y) (pixAt s (2 * c + 1) y)) := by
  rw [packedPixels, Nat.mul_comm, flatMap_block (widthOf s / 2) _ _ (fun y _ => packedRow_length s y) y c hc (by simpa using hy)]
  simp [packedRow, List.getElem?_range hc]

theorem packedPixels_lt (s : State) : (packedPixels s).length < 2 ^ 32 :=
  lt_of_le_of_lt (packedPixels_length_le s) (by norm_num)

/-- The packed pixels of an even width depend on the image rectangle alone (42_pixel_packer.md R127). -/
theorem packedPixels_congr {s t : State} (hw : t.width = s.width) (hh : t.height = s.height)
    (hp : ∀ x y, x < widthOf s → y < heightOf s → pixAt t x y = pixAt s x y) (he : widthOf s % 2 = 0) :
    packedPixels t = packedPixels s := by
  have ew : widthOf t = widthOf s := congrArg BitVec.toNat hw
  have eh : heightOf t = heightOf s := congrArg BitVec.toNat hh
  simp only [packedPixels, eh]
  refine List.flatMap_congr fun y hy => ?_
  simp only [packedRow, ew]
  refine List.map_congr_left fun c hc => ?_
  rw [List.mem_range] at hc hy
  rw [hp _ _ (by omega) hy, hp _ _ (by omega) hy]

@[simp] theorem encodedImage_length (s : State) : (encodedImage s).length = 44 + (packedPixels s).length := by
  simp only [encodedImage, List.length_append, headerBytes_length, paletteBytes_length]

theorem encodedImage_lt (s : State) : (encodedImage s).length < 2 ^ 32 := by
  have := packedPixels_length_le s
  rw [encodedImage_length]
  omega

/-- The encoded image begins with the header (20_memory.md R60). -/
theorem encodedImage_header (s : State) (k : Nat) (h : k < 12) : (encodedImage s)[k]? = (headerBytes s)[k]? := by
  rw [encodedImage, List.append_assoc, List.getElem?_append_left (by simpa using h)]

/-- The palette block stands at offset 12 (20_memory.md R60). -/
theorem encodedImage_palette (s : State) (k : Nat) (h : k < 32) :
    (encodedImage s)[12 + k]? = (paletteBytes s)[k]? := by
  rw [encodedImage, List.append_assoc, List.getElem?_append_right (by simp), List.getElem?_append_left (by simp; omega)]
  simp

/-- The packed pixels stand at offset 44 (20_memory.md R60). -/
theorem encodedImage_pixels (s : State) (k : Nat) : (encodedImage s)[44 + k]? = (packedPixels s)[k]? := by
  rw [encodedImage, List.getElem?_append_right (by simp)]
  simp

/-- The overflow test, with the distinct count as the size of a set (43_image_encoder.md R137). -/
theorem paletteOverflows_iff (s : State) :
    paletteOverflows s = true ↔ 16 < palLenOf s ∨ 16 < (usedSet s).card := by
  simp only [paletteOverflows, usedValues_length, Bool.or_eq_true, decide_eq_true_eq]

/-- `pack` of two 4-bit values puts the first in the high nibble (42_pixel_packer.md R120). -/
theorem packByte_toNat (p1 p2 : Nat) (h1 : p1 ≤ 15) (h2 : p2 ≤ 15) : (packByte p1 p2).toNat = 16 * p1 + p2 := by
  have h : p1 <<< 4 ||| p2 = 2 ^ 4 * p1 + p2 := by
    rw [Nat.shiftLeft_eq, Nat.mul_comm, Nat.two_pow_add_eq_or_of_lt (by omega)]
  rw [packByte, h, BitVec.toNat_ofNat]
  omega

/-- BLDHDR and REDPAL commit whatever the state is. -/
theorem exec_bldhdr (s : State) : exec .bldhdr s = .next (commit (headerBytes s) s) := rfl

theorem exec_redpal (s : State) : exec .redpal s = .next (commit (paletteBytes s) s) := rfl

/-- PACKPX, as the chain of its checks (42_pixel_packer.md R122). -/
theorem exec_packpx (s : State) :
    exec .packpx s = .next (if widthOdd s then raise .oddWidth s
      else if pixelOutOfRange s then raise .pixelRange s else commit (packedPixels s) s) := by
  simp only [exec, execPackpx, packError]
  split_ifs <;> rfl

/-- ENCODE, as the chain of its checks (43_image_encoder.md R135). -/
theorem exec_encode (s : State) :
    exec .encode s = .next (if paletteOverflows s then raise .paletteOverflow s
      else if widthOdd s then raise .oddWidth s
      else if pixelOutOfRange s then raise .pixelRange s else commit (encodedImage s) s) := by
  simp only [exec, execEncode, encodeError, used_any_eq]
  split_ifs <;> rfl

/-- When PACKPX has succeeded, no check applied. -/
theorem packpx_success {s t : State} (h : exec .packpx s = .next t) (h1 : t.status = statusSuccess) :
    widthOdd s = false ∧ pixelOutOfRange s = false ∧ t = commit (packedPixels s) s := by
  rw [exec_packpx] at h
  cases h
  split_ifs at h1 ⊢ with ha hb
  · exact absurd h1 (by decide : statusError .oddWidth ≠ statusSuccess)
  · exact absurd h1 (by decide : statusError .pixelRange ≠ statusSuccess)
  · exact ⟨by simpa using ha, by simpa using hb, rfl⟩

/-- When ENCODE has succeeded, no check applied. -/
theorem encode_success {s t : State} (h : exec .encode s = .next t) (h1 : t.status = statusSuccess) :
    paletteOverflows s = false ∧ widthOdd s = false ∧ pixelOutOfRange s = false ∧ t = commit (encodedImage s) s := by
  rw [exec_encode] at h
  cases h
  split_ifs at h1 ⊢ with h0 ha hb
  · exact absurd h1 (by decide : statusError .paletteOverflow ≠ statusSuccess)
  · exact absurd h1 (by decide : statusError .oddWidth ≠ statusSuccess)
  · exact absurd h1 (by decide : statusError .pixelRange ≠ statusSuccess)
  · exact ⟨by simpa using h0, by simpa using ha, by simpa using hb, rfl⟩

/-- After an error no byte of OUT is specified, whatever an access draws (20_memory.md R68). -/
theorem outUnspecified_raise (e : CommandError) (s : State) : OutUnspecified (raise e s) :=
  fun _ _ => outByte_beyond _ _ (by simp)

/-- Everything a command can do: commit a sequence within the bound, or raise a codec error. -/
theorem exec_cases (i : Instr) (s : State) :
    (∃ buf : List Byte, buf.length ≤ maxResultLen ∧ exec i s = .next (commit buf s)) ∨
      ∃ e, e ≠ CommandError.illegalCommand ∧ exec i s = .next (raise e s) := by
  have hp := packedPixels_length_le s
  cases i with
  | bldhdr => exact .inl ⟨_, by simp [maxResultLen], exec_bldhdr s⟩
  | redpal => exact .inl ⟨_, by simp [maxResultLen], exec_redpal s⟩
  | packpx =>
    rw [exec_packpx]
    split_ifs
    · exact .inr ⟨_, by decide, rfl⟩
    · exact .inr ⟨_, by decide, rfl⟩
    · exact .inl ⟨_, by rw [maxResultLen]; omega, rfl⟩
  | encode =>
    rw [exec_encode]
    split_ifs
    · exact .inr ⟨_, by decide, rfl⟩
    · exact .inr ⟨_, by decide, rfl⟩
    · exact .inr ⟨_, by decide, rfl⟩
    · exact .inl ⟨_, by rw [maxResultLen, encodedImage_length]; omega, rfl⟩

theorem maxResultLen_lt : maxResultLen < 2 ^ 32 := by decide

end Sys2Proof.Machine
end

