-- ==== Sys2Proof/Laws/PerInstr.lean ====
section
/-! SUPPORT. The shape of every command's word, one lemma per command (30_encoding.md R70, R71). -/

/-- A command is well formed, and its word has a zero `zero` field and an `op` field that fits a command. -/
def Sys2Proof.Laws.CommandWord.Statement (i : Sys2Proof.Instr) : Prop :=
  Sys2Proof.wfInstr i = true ∧ Sys2Proof.wfZeroField (Sys2Proof.encode i) = true ∧
    Sys2Proof.wfOpField (Sys2Proof.encode i) = true ∧ (Sys2Proof.encodeBytes i).length = 4

theorem Sys2Proof.Laws.CommandWord.bldhdr : Sys2Proof.Laws.CommandWord.Statement .bldhdr := by
  refine ⟨?_, ?_, ?_, ?_⟩ <;> decide

theorem Sys2Proof.Laws.CommandWord.redpal : Sys2Proof.Laws.CommandWord.Statement .redpal := by
  refine ⟨?_, ?_, ?_, ?_⟩ <;> decide

theorem Sys2Proof.Laws.CommandWord.packpx : Sys2Proof.Laws.CommandWord.Statement .packpx := by
  refine ⟨?_, ?_, ?_, ?_⟩ <;> decide

theorem Sys2Proof.Laws.CommandWord.encode : Sys2Proof.Laws.CommandWord.Statement .encode := by
  refine ⟨?_, ?_, ?_, ?_⟩ <;> decide
end

