-- ==== Sys2Proof/Laws/Step.lean ====
section
/-! SUPPORT. What a step can do, said once, and that every access keeps the canonical form of the spaces. -/

namespace Sys2Proof.Machine

/-- Everything a CMD write can do. -/
theorem runCommandWord_cases (w : Word) (s : State) :
    (∃ buf : List Byte, buf.length ≤ maxResultLen ∧ runCommandWord w s = .next (commit buf s)) ∨
      ∃ e, runCommandWord w s = .next (raise e s) := by
  rcases decode_cases w with ⟨i, h⟩ | h
  · rcases exec_cases i s with ⟨buf, hl, h'⟩ | ⟨e, _, h'⟩
    · exact .inl ⟨buf, hl, by simp only [runCommandWord, h, h']⟩
    · exact .inr ⟨e, by simp only [runCommandWord, h, h']⟩
  · exact .inr ⟨.illegalCommand, by simp only [runCommandWord, h]⟩

/-- Everything one served access can do when it answers a next state. -/
inductive Served (s : State) : HostAccess → State → Prop where
  /-- A CMD write whose command succeeds. -/
  | commits (z o w) (buf : List Byte) (hr : csrTarget? z o = some .cmd) (hl : buf.length ≤ maxResultLen) :
      Served s (.csrWrite z o w) (commit buf s)
  /-- A CMD write that ends in an error. -/
  | raises (z o w) (e) (hr : csrTarget? z o = some .cmd) : Served s (.csrWrite z o w) (raise e s)
  /-- An ignored write. -/
  | ignored (z o d r) (hr : csrTarget? z o = some r) (h : r = .status ∨ r = .outLen) : Served s (.csrWrite z o d) s
  | width (z o d) (hr : csrTarget? z o = some .width) : Served s (.csrWrite z o d) (writeWidth d s)
  | height (z o d) (hr : csrTarget? z o = some .height) : Served s (.csrWrite z o d) (writeHeight d s)
  | palLen (z o d) (hr : csrTarget? z o = some .palLen) : Served s (.csrWrite z o d) (writePalLen d s)
  | pal (z o d i) (hr : csrTarget? z o = some (.palIn i)) : Served s (.csrWrite z o d) (writePal i d s)
  | read (z o r) (hr : csrTarget? z o = some r) : Served s (.csrRead z o) (answerRead (csrRead s r) s)
  | pix (x y v) (h : v < 2 ^ s.idxW) : Served s (.pixWrite x y v) (writePix x y v s)
  | outRead (a z) : Served s (.outRead a z) (answerRead (BitVec.ofNat 32 (memRead s a.toNat (sizeBytes z))) s)
  | reset : Served s .reset (applyReset s)

theorem serve_cases {a : HostAccess} {s t : State} (h : serve a s = .next t) : Served s a t := by
  cases a with
  | csrWrite z o d =>
    simp only [serve] at h
    split at h
    case h_1 r hr =>
      cases r with
      | cmd =>
        rcases runCommandWord_cases d s with ⟨buf, hl, h'⟩ | ⟨e, h'⟩ <;>
          (simp only [csrWrite, h'] at h; cases h)
        · exact .commits z o d buf hr hl
        · exact .raises z o d e hr
      | status => cases h; exact .ignored z o d _ hr (.inl rfl)
      | outLen => cases h; exact .ignored z o d _ hr (.inr rfl)
      | width => cases h; exact .width z o d hr
      | height => cases h; exact .height z o d hr
      | palLen => cases h; exact .palLen z o d hr
      | palIn i => cases h; exact .pal z o d i hr
    case h_2 => cases h
  | csrRead z o =>
    simp only [serve] at h
    split at h
    case h_1 r hr => cases h; exact .read z o r hr
    case h_2 => cases h
  | pixWrite x y v =>
    simp only [serve] at h
    split at h
    case isTrue hv => cases h; exact .pix x y v (by simpa [pixFits] using hv)
    case isFalse => cases h
  | outRead addr z => cases h; exact .outRead addr z
  | reset => cases h; exact .reset

/-- Everything a step can do when it answers a next state: stay idle, or serve the next access. -/
theorem step_cases {s t : State} (h : step s = .next t) :
    (s.pending = [] ∧ t = s) ∨ ∃ a rest, s.pending = a :: rest ∧ Served (beginAccess rest s) a t := by
  unfold step at h
  split at h
  case h_1 hp => cases h; exact .inl ⟨hp, rfl⟩
  case h_2 a rest hp => exact .inr ⟨a, rest, hp, serve_cases h⟩

/-- No access changes the parameter `IDX_W` (00_scope.md R7). -/
theorem served_idxW {s t : State} {a : HostAccess} (h : Served s a t) : t.idxW = s.idxW := by cases h <;> rfl

/-- Every step keeps the canonical form of PIX. -/
theorem step_keeps_pix_wf {s t : State} (h : step s = .next t) (hw : Memory.wf s.pix) : Memory.wf t.pix := by
  rcases step_cases h with ⟨_, rfl⟩ | ⟨a, rest, _, hs⟩
  · exact hw
  · cases hs <;> first | exact hw | exact putCell_wf hw _ _ | exact reset_pix_wf

/-- Every step keeps the canonical form of OUT. -/
theorem step_keeps_out_wf {s t : State} (h : step s = .next t) (hw : Memory.wf s.out) : Memory.wf t.out := by
  rcases step_cases h with ⟨_, rfl⟩ | ⟨a, rest, _, hs⟩
  · exact hw
  · cases hs <;> first | exact hw | exact storeBytes_wf [] 0 _ (by simp) | exact reset_out_wf

/-- The CSR register at an offset has that offset (20_memory.md R59). -/
theorem csrReg?_offset (r : CsrReg) : csrReg? (csrOffset r) = some r := by
  cases r with
  | palIn i => revert i; decide
  | _ => decide

theorem csrTarget?_offset (r : CsrReg) : csrTarget? .word (csrOffset r) = some r := by
  simp [csrTarget?, csrReg?_offset]

/-- A step with an access pending serves it. -/
theorem step_cons {s : State} {a : HostAccess} {rest : List HostAccess} (h : s.pending = a :: rest) :
    step s = serve a (beginAccess rest s) := by
  simp only [step, h]

theorem serve_wrAccess (r : CsrReg) (d : Word) (s : State) : serve (wrAccess r d) s = csrWrite r d s := by
  simp only [wrAccess, serve, csrTarget?_offset]

theorem serve_csrRead (r : CsrReg) (s : State) :
    serve (.csrRead .word (csrOffset r)) s = .next (answerRead (csrRead s r) s) := by
  simp only [serve, csrTarget?_offset]

/-- A step that starts a command runs it on the state with the access begun. -/
theorem step_command {s : State} {w : Word} {rest : List HostAccess} (h : s.pending = commandAccess w :: rest) :
    step s = runCommandWord w (beginAccess rest s) := by
  simp only [step, h, commandAccess, serve, csrTarget?_offset, csrWrite]

end Sys2Proof.Machine
end

