-- ==== Sys2Proof/Tests/Slice0.lean ====
section
/-! SUPPORT. The model's own tests, on the vectors of 95_test_vectors.md, and a witness for every statement that has
hypotheses. Each test is about one step or one command on a small state. -/

namespace Sys2Proof.Machine

/-! ## Well-formedness -/

theorem test_zeroField_refused : wfCommandWord 0x00000101 = false ∧ wfZeroField 0x00000101 = false := by decide

theorem test_opField_refused :
    wfOpField 0x00000000 = false ∧ wfOpField 0x00000005 = false ∧ wfCommandWord 0x00000005 = false := by decide

theorem test_wf_accepts : wfCommandWord 0x00000001 = true ∧ wfCommandWord 0x00000004 = true := by decide

theorem test_csr_access_refused :
    csrTarget? .half 0x08 = none ∧ csrTarget? .word 0x0A = none ∧ csrTarget? .word 0x18 = none ∧
      csrTarget? .word 0x3C = none ∧ csrTarget? .word 0x80 = none ∧ csrTarget? .word 0xFC = none := by decide

/-! ## Decoding: words written out from 30_encoding.md R70 and R71, bits 31:8 zero and then `op` -/

theorem test_decode_bldhdr : decode (0b000000000000000000000000#24 ++ 0b00000001#8) = .ok .bldhdr := by decide

theorem test_decode_redpal : decode (0b000000000000000000000000#24 ++ 0b00000010#8) = .ok .redpal := by decide

theorem test_decode_packpx : decode (0b000000000000000000000000#24 ++ 0b00000011#8) = .ok .packpx := by decide

theorem test_decode_encode : decode (0b000000000000000000000000#24 ++ 0b00000100#8) = .ok .encode := by decide

/-- Vectors T33 to T37. -/
theorem test_decode_reserved :
    decode 0x00000000 = .error .reservedWord ∧ decode 0x00000005 = .error .reservedWord ∧
      decode 0x00000101 = .error .reservedWord ∧ decode 0xFFFFFFFF = .error .reservedWord ∧
      decode 0x80000004 = .error .reservedWord := by decide

theorem test_decodeBytes :
    decodeBytes [0x04, 0x00, 0x00, 0x00, 0xAA] = .ok (.encode, [0xAA]) ∧
      decodeBytes [0x00, 0x00, 0x00, 0x04] = .error .reservedWord ∧ decodeBytes [0x01, 0x00, 0x00] = .error .tooShort := by
  decide

theorem test_decodeTableWord :
    decodeTableWord 32 1 = some .bldhdr ∧ decodeTableWord 32 4 = some .encode ∧ decodeTableWord 32 5 = none := by decide

/-! ## States and outcomes -/

/-- The sixteen greys of vector T7. -/
def greys : Vector (BitVec 24) 16 := Vector.ofFn fun i => BitVec.ofNat 24 (0x111111 * i.val)

/-- An image with the grey palette, all entries written, and the given PIX cells. -/
def testImage (w h n : Half) (cells : List (Nat × Nat)) : State :=
  { State.reset with width := w, height := h, palLen := n, palIn := greys, palWritten := 0xFFFF, pix := cells }

/-- STATUS, OUT_LEN and the result of a next state. -/
def outcomeOf (o : Host.Outcome State Fault Refusal) : Option (Word × Word × List Byte) :=
  match o with
  | .next t => some (t.status, t.outLen, resultBytes t)
  | .fault f => nomatch f
  | .refused _ => none

/-- The 32 bytes of vector T7. -/
def greyBlock : List Byte :=
  [0x00, 0x00, 0x82, 0x10, 0x04, 0x21, 0x86, 0x31, 0x28, 0x42, 0xAA, 0x52, 0x2C, 0x63, 0xAE, 0x73,
    0x51, 0x8C, 0xD3, 0x9C, 0x55, 0xAD, 0xD7, 0xBD, 0x79, 0xCE, 0xFB, 0xDE, 0x7D, 0xEF, 0xFF, 0xFF]

/-! ## The commands, one step each -/

/-- Vector T6. -/
theorem test_bldhdr_byte_order :
    outcomeOf (exec .bldhdr (testImage 0x1234 0xABCD 0 [])) =
      some (0x01, 12, [0x03, 0x03, 0x10, 0x00, 0x34, 0x12, 0xCD, 0xAB, 0x00, 0x00, 0x00, 0x00]) := by decide +kernel

/-- Vector T4: an odd width is no error here. -/
theorem test_bldhdr_unchecked :
    outcomeOf (exec .bldhdr (testImage 3 0 0 [])) =
      some (0x01, 12, [0x03, 0x03, 0x10, 0x00, 0x03, 0x00, 0x00, 0x00, 0x00, 0x00, 0x00, 0x00]) := by decide +kernel

/-- Vector T10: more than 16 declared. -/
theorem test_redpal_seventeen :
    outcomeOf (exec .redpal (testImage 0 0 17 [])) = some (0x01, 32, greyBlock) := by decide +kernel

/-- Vector T8, with the source's literal corrected (90_conflicts.md C2). -/
theorem test_redpal_one :
    outcomeOf (exec .redpal { testImage 0 0 1 [] with palIn := Vector.replicate 16 0xFF8008, palWritten := 1 }) =
      some (0x01, 32, [0x01, 0xFC] ++ List.replicate 30 0x00) := by decide +kernel

/-- Vector T12c: rows top to bottom, even column high. -/
theorem test_packpx_rows :
    outcomeOf (exec .packpx (testImage 4 2 0
        [(0, 0), (1, 1), (2, 2), (3, 3), (65536, 3), (65537, 2), (65538, 1), (65539, 0)])) =
      some (0x01, 4, [0x01, 0x23, 0x32, 0x10]) := by decide +kernel

/-- Vector T15: odd width before pixel range. -/
theorem test_packpx_odd_width_first :
    outcomeOf (exec .packpx (testImage 3 1 0 [(0, 200), (1, 200), (2, 200)])) = some (0x23, 0, []) := by decide +kernel

/-- Vector T22: 16 distinct values encode. -/
theorem test_encode_sixteen_values :
    outcomeOf (exec .encode (testImage 18 1 16
        ((List.range 16).map (fun k => (k, k)) ++ [(16, 0), (17, 0)]))) =
      some (0x01, 53, [0x03, 0x03, 0x10, 0x00, 0x12, 0x00, 0x01, 0x00, 0x00, 0x00, 0x00, 0x00] ++ greyBlock ++
        [0x01, 0x23, 0x45, 0x67, 0x89, 0xAB, 0xCD, 0xEF, 0x00]) := by decide +kernel

/-- Vector T23: overflow before odd width and range. -/
theorem test_encode_overflow_first :
    outcomeOf (exec .encode (testImage 17 1 16 ((List.range 17).map fun k => (k, k)))) = some (0x33, 0, []) := by
  decide +kernel

/-- Each row of the table runs as the first command after reset; a reserved word gives 0x43. -/
theorem test_first_step_after_reset :
    outcomeOf (step (State.reset.withFetchWord 32 1)) =
        some (0x01, 12, [0x03, 0x03, 0x10, 0x00, 0x00, 0x00, 0x00, 0x00, 0x00, 0x00, 0x00, 0x00]) ∧
      outcomeOf (step (State.reset.withFetchWord 32 2)) = some (0x01, 32, List.replicate 32 0x00) ∧
      outcomeOf (step (State.reset.withFetchWord 32 3)) = some (0x01, 0, []) ∧
      outcomeOf (step (State.reset.withFetchWord 32 5)) = some (0x43, 0, []) := by decide +kernel

/-! ## Functions, STATUS and host accesses -/

/-- The table of `rgb565` values of 95_test_vectors.md. -/
theorem test_rgb565 :
    rgb565 0xFF 0x80 0x08 = 0xFC01 ∧ rgb565 0x07 0x03 0x07 = 0x0000 ∧ rgb565 0x08 0x04 0x08 = 0x0821 ∧
      rgb565 0xFF 0x00 0x00 = 0xF800 ∧ rgb565 0x00 0xFF 0x00 = 0x07E0 ∧ rgb565 0x00 0x00 0xFF = 0x001F ∧
      rgb565 0x29 0xAD 0xFF = 0x2D7F ∧ rgb565 0xF7 0xFB 0xF7 = 0xF7DE := by decide

/-- 60_exceptions.md R151. -/
theorem test_status_words :
    statusSuccess = 0x01 ∧ statusError .pixelRange = 0x13 ∧ statusError .oddWidth = 0x23 ∧
      statusError .paletteOverflow = 0x33 ∧ statusError .illegalCommand = 0x43 := by decide

/-- 42_pixel_packer.md R120. -/
theorem test_pack : packByte 3 7 = 0x37 ∧ packByte 15 0 = 0xF0 ∧ packByte 0 15 = 0x0F := by decide

/-- 30_encoding.md R84: `SETDIM 3, 1`; `PAL 0, 0xFF, 0x80, 0x08`; `ENCODE`; `ROW 0: 3 7`. -/
theorem test_script_encodings :
    scriptAccesses [.setdim 3 1, .pal 0 0xFF 0x80 0x08, .cmd .encode, .row 0 [3, 7]] =
      [.csrWrite .word 0x08 0x00000003, .csrWrite .word 0x0C 0x00000001, .csrWrite .word 0x40 0x00FF8008,
        .csrWrite .word 0x00 0x00000004, .pixWrite 0 0 3, .pixWrite 1 0 7] := by decide

/-- "A host write of `0xFFFFFFFF` to WIDTH reads back `0x0000FFFF`; to `PAL_IN[0]` reads back `0x00FFFFFF`". -/
theorem test_write_masks :
    csrRead (writeWidth 0xFFFFFFFF State.reset) .width = 0x0000FFFF ∧
      csrRead (writePal 0 0xFFFFFFFF State.reset) (.palIn 0) = 0x00FFFFFF ∧ csrRead State.reset .cmd = 0 := by decide

/-- 00_scope.md R7: cells of 8 bits by default; of 4 bits when the block is built so ("the values do not fit a cell"). -/
theorem test_pixel_fits :
    pixFits State.reset 255 = true ∧ pixFits State.reset 256 = false ∧ pixFits (resetBlock 4) 15 = true ∧
      pixFits (resetBlock 4) 16 = false := by decide

/-- `unpack` of the 48 bytes of program P1 (vector V7). -/
theorem test_unpack :
    unpack ([0x03, 0x03, 0x10, 0x00, 0x04, 0x00, 0x02, 0x00, 0x00, 0x00, 0x00, 0x00] ++ List.replicate 32 0x00 ++
        [0x01, 0x23, 0x32, 0x10]) = (4, 2, [[0, 1, 2, 3], [3, 2, 1, 0]]) := by decide +kernel

/-! ## Witnesses: each theorem meets all the hypotheses of the statement it names -/

/-- The 2x1 image `3 7` of vector T12, with one palette entry. -/
def smallImage : State := testImage 2 1 16 [(0, 3), (1, 7)]

/-- `smallImage` with one access pending. -/
def withAccess (a : HostAccess) : State := { smallImage with pending := [a] }

/-- Program P2, line 5: the default block takes the invalid index 16. -/
theorem test_pix_write_sixteen :
    ∃ t, step (withAccess (.pixWrite 2 0 16)) = .next t ∧ pixAt t 2 0 = 16 ∧ pixAt t 1 0 = 7 := ⟨_, rfl, by decide, by decide⟩

theorem smallImage_inRange : PixelsInRange smallImage := by
  intro x y hx hy
  by_contra h
  have : pixelOutOfRange smallImage = true := (pixelOutOfRange_iff smallImage).2 ⟨x, y, hx, hy, by omega⟩
  revert this
  decide

theorem smallImage_few : (usedSet smallImage).card ≤ 16 := by
  rw [← usedValues_length]
  decide

theorem witness_StepKeepsInvariant :
    State.Inv { State.reset with pending := [commandAccess 1] } ∧
      ∃ t, step { State.reset with pending := [commandAccess 1] } = .next t := by
  refine ⟨⟨?_, ?_, ?_, ?_, ?_, ?_, ?_, ?_⟩, _, rfl⟩ <;> decide

/-- The narrowest block. -/
theorem witness_ResetMeetsInvariant : 4 ≤ (resetBlock 4).idxW := by decide

theorem witness_StepRunsDecodedCommand :
    ((withAccess (commandAccess 3)).pending = commandAccess 3 :: [] ∧ decode 3 = .ok .packpx) ∧
      decodeTableWord 32 4 = some .encode := by decide

theorem witness_StepServesAccessesInOrder :
    State.reset.pending = [] ∧ (withAccess (commandAccess 1)).pending = commandAccess 1 :: [] ∧
      ∃ t, step (withAccess (commandAccess 1)) = .next t := ⟨rfl, rfl, _, rfl⟩

theorem witness_DecodeEncodeAgree :
    wfInstr .encode = true ∧ decodeBytes [0x04, 0x00, 0x00, 0x00] = .ok (.encode, []) := by decide

/-- Reserved words next to the four commands, and at the ends of the range. -/
theorem witness_ReservedWordRaisesIllegalCommand :
    ((0x00000000 : Word) ≠ 1 ∧ (0x00000000 : Word) ≠ 2 ∧ (0x00000000 : Word) ≠ 3 ∧ (0x00000000 : Word) ≠ 4) ∧
    ((0x00000005 : Word) ≠ 1 ∧ (0x00000005 : Word) ≠ 2 ∧ (0x00000005 : Word) ≠ 3 ∧ (0x00000005 : Word) ≠ 4) ∧
    ((0x00000101 : Word) ≠ 1 ∧ (0x00000101 : Word) ≠ 2 ∧ (0x00000101 : Word) ≠ 3 ∧ (0x00000101 : Word) ≠ 4) ∧
    ((0xFFFFFFFF : Word) ≠ 1 ∧ (0xFFFFFFFF : Word) ≠ 2 ∧ (0xFFFFFFFF : Word) ≠ 3 ∧ (0xFFFFFFFF : Word) ≠ 4) := by
  refine ⟨?_, ?_, ?_, ?_⟩ <;> decide

theorem witness_Rgb565Idempotent :
    (0xF8 : Byte) &&& 0x07 = 0 ∧ (0xFC : Byte) &&& 0x03 = 0 ∧ (0x08 : Byte) &&& 0x07 = 0 := by decide

/-- Vector T11: two states that differ in an entry beyond PAL_LEN; and a state with PAL_LEN = 0. -/
theorem witness_RedpalPadsUnusedSlots :
    (testImage 0 0 2 []).palIn ≠ ({ testImage 0 0 2 [] with palIn := greys.set 2 0xFF0000 } : State).palIn ∧
      (∀ i : Fin 16, i.val < (testImage 0 0 2 []).palLen.toNat →
        palAt { testImage 0 0 2 [] with palIn := greys.set 2 0xFF0000 } i = palAt (testImage 0 0 2 []) i) ∧
      (testImage 0 0 0 []).palLen = 0 ∧ min 16 (testImage 0 0 2 []).palLen.toNat ≤ 2 := by decide +kernel

theorem witness_RedpalUsesFirstSixteen :
    16 ≤ (testImage 0 0 16 []).palLen.toNat ∧ 16 ≤ (testImage 0 0 65535 []).palLen.toNat := by decide

theorem witness_PackIsBijection : (15 : Nat) ≤ 15 ∧ (0 : Nat) ≤ 15 := by decide

/-- A state for each branch: odd width; an index of 16; a valid image. -/
theorem witness_PackpxOutcome :
    (testImage 3 1 0 []).width.getLsbD 0 = true ∧
      ((testImage 2 1 0 [(0, 16), (1, 0)]).width.getLsbD 0 = false ∧ 15 < pixAt (testImage 2 1 0 [(0, 16), (1, 0)]) 0 0) ∧
      (smallImage.width.getLsbD 0 = false ∧
        ∀ x y, x < smallImage.width.toNat → y < smallImage.height.toNat → pixAt smallImage x y ≤ 15) :=
  ⟨by decide, by decide, by decide, smallImage_inRange⟩

theorem witness_PackedByteOrder :
    smallImage.width.getLsbD 0 = false ∧ PixelsInRange smallImage ∧ 0 < smallImage.width.toNat * smallImage.height.toNat / 2 :=
  ⟨by decide, smallImage_inRange, by decide⟩

/-- A success; a zero width; an even width with a zero height. -/
theorem witness_PackpxLengths :
    (∃ t, exec .packpx smallImage = .next t ∧ t.status = 0x00000001) ∧ (testImage 0 5 0 []).width.toNat = 0 ∧
      (testImage 2 0 0 []).width.toNat % 2 = 0 ∧ (testImage 2 0 0 []).height.toNat = 0 :=
  ⟨⟨_, rfl, by decide⟩, by decide, by decide, by decide⟩

/-- Vector T16: two states that differ in PAL_LEN and in a cell outside the image. -/
theorem witness_PackpxReadsImageOnly :
    (testImage 2 1 0 [(0, 3), (1, 7), (2, 99)]).width = smallImage.width ∧
      (testImage 2 1 0 [(0, 3), (1, 7), (2, 99)]).height = smallImage.height ∧
      ∀ x y, x < smallImage.width.toNat → y < smallImage.height.toNat →
        pixAt (testImage 2 1 0 [(0, 3), (1, 7), (2, 99)]) x y = pixAt smallImage x y := by
  refine ⟨rfl, rfl, fun x y hx hy => ?_⟩
  have hx' : x < 2 := hx
  have hy' : y < 1 := hy
  interval_cases y
  interval_cases x <;> rfl

/-- The image of vector T21: 17 distinct values, even width. -/
def wideImage : State := testImage 18 1 16 ((List.range 17).map (fun k => (k, k)) ++ [(17, 0)])

theorem wideImage_used : 16 < (usedSet wideImage).card := by
  rw [← usedValues_length]
  decide +kernel

/-- A state for each branch: 17 declared, 17 used, odd width, an index of 200, a valid image. -/
theorem witness_EncodeOutcome :
    16 < (testImage 2 1 17 []).palLen.toNat ∧ 16 < (usedSet wideImage).card ∧
      ((testImage 3 0 16 []).palLen.toNat ≤ 16 ∧ (usedSet (testImage 3 0 16 [])).card ≤ 16 ∧
        (testImage 3 0 16 []).width.getLsbD 0 = true) ∧
      ((testImage 2 1 16 [(0, 200), (1, 200)]).palLen.toNat ≤ 16 ∧
        (usedSet (testImage 2 1 16 [(0, 200), (1, 200)])).card ≤ 16 ∧
        (testImage 2 1 16 [(0, 200), (1, 200)]).width.getLsbD 0 = false ∧
        15 < pixAt (testImage 2 1 16 [(0, 200), (1, 200)]) 0 0) ∧
      (smallImage.palLen.toNat ≤ 16 ∧ (usedSet smallImage).card ≤ 16 ∧ smallImage.width.getLsbD 0 = false ∧
        ∀ x y, x < smallImage.width.toNat → y < smallImage.height.toNat → pixAt smallImage x y ≤ 15) := by
  refine ⟨by decide, wideImage_used, ⟨by decide, ?_, by decide⟩, ⟨by decide, ?_, by decide, by decide⟩,
    by decide, smallImage_few, by decide, smallImage_inRange⟩ <;> (rw [← usedValues_length]; decide)

theorem witness_PaletteOverflowCause :
    ∃ t, exec .encode (testImage 2 1 17 []) = .next t ∧ t.status = 0x00000033 :=
  ⟨_, by rw [exec_encode, if_pos (by decide)], by decide⟩

theorem witness_OverflowForcesRange : 16 < (usedSet wideImage).card ∧ wideImage.width.toNat % 2 = 0 :=
  ⟨wideImage_used, by decide⟩

theorem encode_smallImage : exec .encode smallImage = .next (commit (encodedImage smallImage) smallImage) := by
  rw [exec_encode, if_neg (by decide), if_neg (by decide), if_neg (by decide)]

theorem witness_EncodeComposesCommands :
    (∃ te, exec .encode smallImage = .next te ∧ te.status = 0x00000001) ∧ smallImage.palLen.toNat ≤ 16 ∧
      (usedSet smallImage).card ≤ 16 :=
  ⟨⟨_, encode_smallImage, rfl⟩, by decide, smallImage_few⟩

theorem witness_EncodeLengths : ∃ t, exec .encode smallImage = .next t ∧ t.status = 0x00000001 :=
  ⟨_, encode_smallImage, rfl⟩

theorem witness_EncodeIgnoresPaletteLength : smallImage.palLen.toNat ≤ 16 ∧ (2 : Half).toNat ≤ 16 := by decide

/-- Zero width; even width with zero height; odd width with zero height. -/
theorem witness_EncodeZeroDimensions :
    ((testImage 0 3 16 []).palLen.toNat ≤ 16 ∧ (testImage 0 3 16 []).width.toNat = 0) ∧
      ((testImage 2 0 16 []).palLen.toNat ≤ 16 ∧ (testImage 2 0 16 []).width.toNat % 2 = 0 ∧
        (testImage 2 0 16 []).height.toNat = 0) ∧
      ((testImage 3 0 16 []).palLen.toNat ≤ 16 ∧ (testImage 3 0 16 []).width.toNat % 2 = 1 ∧
        (testImage 3 0 16 []).height.toNat = 0) := by decide

theorem witness_EncodeRoundTrip : ∃ t, exec .encode smallImage = .next t ∧ t.status = 0x00000001 :=
  ⟨_, encode_smallImage, rfl⟩

theorem witness_ValidImageEncodes : ValidImage smallImage := by
  refine ⟨by decide, by decide, by decide, by decide, fun x y hx hy => ?_⟩
  have hx' : x < 2 := hx
  have hy' : y < 1 := hy
  interval_cases y
  interval_cases x <;> decide

/-- For every command, a state in which it answers a next state: the hypothesis of CommandsKeepInputs, CommandsKeepHostSide,
StatusOfEachCommand and OutBeyondLengthIsFree. -/
theorem witness_CommandsKeepInputs : ∀ i, ∃ t, exec i smallImage = .next t := by
  intro i
  cases i
  · exact ⟨_, rfl⟩
  · exact ⟨_, rfl⟩
  · exact ⟨_, exec_packpx _⟩
  · exact ⟨_, exec_encode _⟩

/-- A state and the same state after an error. -/
theorem witness_CommandsIgnoreEarlierOutcome :
    SameInputs smallImage (raise .illegalCommand smallImage) ∧ SameHostSide smallImage (raise .illegalCommand smallImage) ∧
      smallImage ≠ raise .illegalCommand smallImage :=
  ⟨⟨rfl, rfl, rfl, rfl, rfl, rfl⟩, ⟨rfl, rfl, rfl, rfl⟩, by decide⟩

/-- A success and a failure. -/
theorem witness_StatusOfEachCommand :
    (∃ t, exec .encode smallImage = .next t ∧ statusErr t.status = false) ∧
      ∃ t, exec .packpx (testImage 3 1 0 []) = .next t ∧ statusErr t.status = true :=
  ⟨⟨_, encode_smallImage, by decide⟩, ⟨_, rfl, by decide⟩⟩

theorem witness_CommitLeavesResult : ([0x37] : List Byte).length < 2 ^ 32 := by decide

/-- A result with a byte below and one at its length. -/
theorem witness_OutBeyondLengthIsFree :
    ∃ t, exec .bldhdr smallImage = .next t ∧ 11 < t.outLen.toNat ∧ t.outLen.toNat ≤ 12 :=
  ⟨_, rfl, by decide, by decide⟩

theorem witness_WrittenInputsFixResult : ∀ i, InputsWritten i smallImage := by
  have hp : PaletteWritten smallImage := fun i _ => by revert i; decide
  have hx : PixelsWritten smallImage := by
    intro x y hx hy
    have hx' : x < 2 := hx
    have hy' : y < 1 := hy
    interval_cases y
    interval_cases x <;> decide
  intro i
  cases i
  · exact trivial
  · exact hp
  · exact hx
  · exact ⟨hp, hx⟩

/-- Both branches, at offsets on either side of the reserved ranges. -/
theorem witness_MalformedCsrAccessRefused :
    (AccessSize.byte ≠ .word) ∧ (0x0A : BitVec 8).toNat % 4 ≠ 0 ∧ 0x18 ≤ (0x18 : BitVec 8).toNat ∧
      (0x3C : BitVec 8).toNat ≤ 0x3F ∧ 0x80 ≤ (0x80 : BitVec 8).toNat ∧
      (¬ ((0x14 : BitVec 8).toNat % 4 ≠ 0 ∨ (0x18 ≤ (0x14 : BitVec 8).toNat ∧ (0x14 : BitVec 8).toNat ≤ 0x3F) ∨
        0x80 ≤ (0x14 : BitVec 8).toNat)) ∧
      ¬ ((0x7C : BitVec 8).toNat % 4 ≠ 0 ∨ (0x18 ≤ (0x7C : BitVec 8).toNat ∧ (0x7C : BitVec 8).toNat ≤ 0x3F) ∨
        0x80 ≤ (0x7C : BitVec 8).toNat) := by decide

theorem witness_OperandRegistersReadBack :
    ∀ r ∈ [CsrReg.width, CsrReg.height, CsrReg.palLen],
      ({ smallImage with pending := [wrAccess r 0xFFFFFFFF, .csrRead .word (csrOffset r)] } : State).pending =
        wrAccess r 0xFFFFFFFF :: .csrRead .word (csrOffset r) :: [] := by decide

theorem witness_PaletteEntryReadsBack :
    ({ smallImage with pending := [wrAccess (.palIn 15) 0xFF, .csrRead .word (csrOffset (.palIn 15))] } : State).pending =
      wrAccess (.palIn 15) 0xFF :: .csrRead .word (csrOffset (.palIn 15)) :: [] := by decide

/-- The largest value and the last cell. -/
theorem witness_PixelWriteStores :
    (withAccess (.pixWrite 0xFFFF 0xFFFF 255)).pending = .pixWrite 0xFFFF 0xFFFF 255 :: [] ∧
      255 < 2 ^ (withAccess (.pixWrite 0xFFFF 0xFFFF 255)).idxW := by decide

theorem witness_PixelValueTooWideRefused :
    (withAccess (.pixWrite 0 0 256)).pending = .pixWrite 0 0 256 :: [] ∧
      2 ^ (withAccess (.pixWrite 0 0 256)).idxW ≤ 256 := by decide

theorem witness_IndexWidthBoundsValues : State.Inv { State.reset with width := 4, height := 2 } := by
  refine ⟨?_, ?_, ?_, ?_, ?_, ?_, ?_, ?_⟩ <;> decide

/-- A read of a register, a read of OUT, a write of STATUS and one of OUT_LEN. -/
theorem witness_ReadsAndReadOnlyWritesChangeNothing :
    (withAccess (.csrRead .word (csrOffset .width))).pending = .csrRead .word (csrOffset .width) :: [] ∧
      (withAccess (.outRead 0 .byte)).pending = .outRead 0 .byte :: [] ∧
      (withAccess (wrAccess .status 0xFFFFFFFF)).pending = wrAccess .status 0xFFFFFFFF :: [] ∧
      (withAccess (wrAccess .outLen 0xFFFFFFFF)).pending = wrAccess .outLen 0xFFFFFFFF :: [] := by decide

theorem witness_OnlyCommandsAndResetWriteOutputs :
    (withAccess (wrAccess .width 4)).pending = wrAccess .width 4 :: [] ∧
      (∃ t, step (withAccess (wrAccess .width 4)) = .next t) ∧ (∀ w, wrAccess .width 4 ≠ commandAccess w) ∧
      wrAccess .width 4 ≠ .reset :=
  ⟨rfl, ⟨_, rfl⟩, fun w h => by injection h with _ h _; exact absurd h (by decide), by decide⟩

theorem witness_ResultRegistersRead :
    ∀ o ∈ ([0x00, 0x04, 0x14] : List (BitVec 8)), (withAccess (.csrRead .word o)).pending = .csrRead .word o :: [] := by
  decide

/-- All three sizes at the largest value, ending exactly at OUT_LEN. -/
theorem witness_MemReadAfterMemWrite :
    ∀ n ∈ [1, 2, 4], (n = 1 ∨ n = 2 ∨ n = 4) ∧ 2 ^ (8 * n) - 1 < 2 ^ (8 * n) ∧
      (12 - n) + n ≤ ({ smallImage with outLen := 12 } : State).outLen.toNat := by decide

theorem witness_OutReadAssemblesBytes :
    ∀ z ∈ [AccessSize.byte, AccessSize.half, AccessSize.word],
      (withAccess (.outRead 0xFFFFFFFF z)).pending = .outRead 0xFFFFFFFF z :: [] := by decide

theorem witness_ResetEvent : (withAccess .reset).pending = .reset :: [] := by decide

theorem witness_ResetAbandonsCommand :
    ({ smallImage with pending := [commandAccess 4, .reset] } : State).pending = commandAccess 4 :: .reset :: [] ∧
      (withAccess .reset).pending = .reset :: [] := by decide

theorem witness_UnitsAreIndependent :
    ({ units := [State.reset, withAccess (commandAccess 1)], draws := 7 } : Platform).units[1]? =
        some (withAccess (commandAccess 1)) ∧
      ∃ t, step { withAccess (commandAccess 1) with draws := 7 } = .next t := ⟨rfl, _, rfl⟩

/-- Reset of a block that is not the default one. -/
theorem witness_IndexWidthIsFixed :
    ∃ t, step { resetBlock 4 with pending := [.reset] } = .next t := ⟨_, rfl⟩

/-- A block of each of the two widths, at the largest value and the one above. -/
theorem witness_ParametersAndDefaults :
    State.reset.idxW = 8 ∧ (resetBlock 4).idxW = 4 ∧ (255 : Nat) ≤ 255 ∧ ¬ (256 : Nat) ≤ 255 ∧ ¬ (16 : Nat) ≤ 15 := by decide

end Sys2Proof.Machine
end

/-! PROOFS. Family 10_state.md: the values after reset (R36) and what no command writes (R35). -/

namespace Sys2Proof.Machine

/-! ## Unspecified storage -/

/-- A PAL_IN entry the host has not written reads as a free value (10_state.md R37). -/
theorem palAt_of_not_written {s : State} {i : Fin 16} (h : s.palWritten.getLsbD i = false) :
    palAt s i = Config.freePal s.draws i := by
  rw [palAt, h, if_neg Bool.false_ne_true]

/-- A PIX cell the host has not written reads as a free value of `IDX_W` bits (10_state.md R37). -/
theorem pixAt_of_not_written {s : State} {x y : Nat} (h : cellAt s.pix (pixKey x y) = none) :
    pixAt s x y = Config.freePix s.draws x y % 2 ^ s.idxW := by
  simp [pixAt, h]

/-- With OUT_LEN 0 no byte of OUT is below it (20_memory.md R68). -/
theorem outUnspecified_of_outLen_zero {s : State} (h : s.outLen = 0) : OutUnspecified s :=
  fun _ _ => outByte_beyond _ _ (by simp [h])

/-- Settles O1: each register by its value in `State.reset`, and nothing of PAL_IN, PIX or OUT is written there. -/
theorem resetValues : Obligations.ResetValues := by
  refine ⟨rfl, rfl, rfl, rfl, rfl, rfl, fun d i => ?pal, fun d x y => ?pix, ?out⟩
  case pal => exact palAt_of_not_written (s := { State.reset with draws := d }) BitVec.getLsbD_zero
  case pix => exact pixAt_of_not_written (s := { State.reset with draws := d }) rfl
  case out => exact outUnspecified_of_outLen_zero rfl

/-! ## The inputs of a command -/

theorem sameInputs_commit (buf : List Byte) (s : State) : SameInputs s (commit buf s) := by
  simp [SameInputs]

theorem sameInputs_raise (e : CommandError) (s : State) : SameInputs s (raise e s) := by
  simp [SameInputs]

/-- The next state of a command comes from one of the two exits of 00_scope.md R9. -/
theorem exec_next_cases {i : Instr} {s t : State} (h : exec i s = .next t) :
    (∃ buf : List Byte, buf.length ≤ maxResultLen ∧ t = commit buf s) ∨
      ∃ e, e ≠ CommandError.illegalCommand ∧ t = raise e s := by
  rcases exec_cases i s with ⟨buf, hlen, hexec⟩ | ⟨e, he, hexec⟩
  · exact .inl ⟨buf, hlen, Host.Outcome.next.inj (h.symm.trans hexec)⟩
  · exact .inr ⟨e, he, Host.Outcome.next.inj (h.symm.trans hexec)⟩

/-- Settles O32: a command ends in `commit` or in `raise`, and neither writes an input. -/
theorem commandsKeepInputs : Obligations.CommandsKeepInputs := by
  intro i s t h
  rcases exec_next_cases h with ⟨buf, -, rfl⟩ | ⟨e, -, rfl⟩
  · exact sameInputs_commit buf s
  · exact sameInputs_raise e s

end Sys2Proof.Machine

/-! PROOFS. Family 30_encoding.md: the outcome of every CMD write (R74). -/

namespace Sys2Proof.Machine

/-! ## The outcome of a command word -/

/-- The host access of a command is a CMD write (10_state.md R24). -/
theorem serve_commandAccess (w : Word) (s : State) : serve (commandAccess w) s = runCommandWord w s :=
  serve_wrAccess .cmd w s

theorem runCommandWord_encode (i : Instr) (s : State) : runCommandWord (encode i) s = exec i s := by
  simp only [runCommandWord, (decode_ok_iff (encode i) i).2 rfl]

/-- A word that encodes no command is reserved (30_encoding.md R72). -/
theorem decode_reserved {w : Word} (h : ∀ i, w ≠ encode i) : decode w = .error .reservedWord := by
  rcases decode_cases w with ⟨i, hi⟩ | hr
  · exact absurd ((decode_ok_iff w i).1 hi) (h i)
  · exact hr

theorem runCommandWord_reserved {w : Word} (h : ∀ i, w ≠ encode i) (s : State) :
    runCommandWord w s = .next (raise .illegalCommand s) := by
  simp only [runCommandWord, decode_reserved h]

/-- Settles O9: a word of the chain encodes its command, and a word past the chain encodes none. -/
theorem cmdWriteOutcome : Obligations.CmdWriteOutcome := by
  intro s w
  simp only [serve_commandAccess]
  split_ifs with h1 h2 h3 h4
  · subst h1; exact runCommandWord_encode .bldhdr s
  · subst h2; exact runCommandWord_encode .redpal s
  · subst h3; exact runCommandWord_encode .packpx s
  · subst h4; exact runCommandWord_encode .encode s
  · have hw : ∀ i, w ≠ encode i
      | .bldhdr => h1
      | .redpal => h2
      | .packpx => h3
      | .encode => h4
    exact runCommandWord_reserved hw s

end Sys2Proof.Machine

/-! PROOFS. Family 40_header_builder.md: BLDHDR succeeds with the header as its result (R100, R101). -/

namespace Sys2Proof.Machine

theorem commit_headerBytes_outLen (s : State) : (commit (headerBytes s) s).outLen = 12 := by
  simp

/-- The result of BLDHDR is the header, built from the state before the command (40_header_builder.md R100). -/
theorem resultBytes_commit_headerBytes (s : State) : resultBytes (commit (headerBytes s) s) = headerBytes s :=
  resultBytes_commit _ s (by rw [headerBytes_length]; norm_num)

/-- Settles O11: BLDHDR commits the header whatever the state is, and the committed bytes are the ones read back. -/
theorem bldhdrWritesHeader : Obligations.BldhdrWritesHeader := by
  intro s
  refine ⟨commit (headerBytes s) s, exec_bldhdr s, ?status, commit_headerBytes_outLen s, ?result⟩
  case status => exact commit_status (headerBytes s) s
  case result => rw [resultBytes_commit_headerBytes, headerBytes_eq]

end Sys2Proof.Machine

/-! PROOFS. Family 41_palette_reducer.md: truncation to RGB565 (R110, R114) and the palette block of REDPAL (R111 to R113). -/

namespace Sys2Proof.Machine

/-! ## RGB565 as arithmetic (41_palette_reducer.md R110) -/

/-- Clearing the low `k` bits of a byte rounds it down to a multiple of `2 ^ k`. -/
theorem toNat_and_allOnes_shiftLeft (x : Byte) (k : Nat) :
    (x &&& BitVec.allOnes 8 <<< k).toNat = 2 ^ k * (x.toNat / 2 ^ k) := by
  have hle : x.toNat / 2 ^ k * 2 ^ k < 2 ^ 8 := lt_of_le_of_lt (Nat.div_mul_le_self _ _) x.isLt
  rw [← BitVec.shiftLeft_ushiftRight, BitVec.toNat_shiftLeft, BitVec.toNat_ushiftRight, Nat.shiftRight_eq_div_pow,
    Nat.shiftLeft_eq, Nat.mod_eq_of_lt hle, Nat.mul_comm]

/-- The mask `0xF8` of `r` and `b` drops the low three bits (41_palette_reducer.md R110). -/
theorem toNat_and_F8 (x : Byte) : (x &&& 0xF8).toNat = 8 * (x.toNat / 8) := toNat_and_allOnes_shiftLeft x 3

/-- The mask `0xFC` of `g` drops the low two bits (41_palette_reducer.md R110). -/
theorem toNat_and_FC (x : Byte) : (x &&& 0xFC).toNat = 4 * (x.toNat / 4) := toNat_and_allOnes_shiftLeft x 2

/-- The three terms occupy disjoint bits, so `|` is read as `+` (41_palette_reducer.md R110). -/
theorem rgb565_toNat (r g b : Byte) :
    (rgb565 r g b).toNat = 2048 * (r.toNat / 8) + 32 * (g.toNat / 4) + b.toNat / 8 := by
  have hr := r.isLt
  have hg := g.isLt
  have hb := b.isLt
  have hrTerm : ((r &&& 0xF8).setWidth 16 <<< 8).toNat = 2 ^ 11 * (r.toNat / 8) := by
    rw [BitVec.toNat_shiftLeft, BitVec.toNat_setWidth, toNat_and_F8, Nat.shiftLeft_eq]
    omega
  have hgTerm : ((g &&& 0xFC).setWidth 16 <<< 3).toNat = 2 ^ 5 * (g.toNat / 4) := by
    rw [BitVec.toNat_shiftLeft, BitVec.toNat_setWidth, toNat_and_FC, Nat.shiftLeft_eq]
    omega
  have hbTerm : ((b &&& 0xF8).setWidth 16 >>> 3).toNat = b.toNat / 8 := by
    rw [BitVec.toNat_ushiftRight, BitVec.toNat_setWidth, toNat_and_F8, Nat.shiftRight_eq_div_pow]
    omega
  have hlow : 2 ^ 5 * (g.toNat / 4) + b.toNat / 8 = 2 ^ 5 * (g.toNat / 4) ||| b.toNat / 8 :=
    Nat.two_pow_add_eq_or_of_lt (by omega) _
  rw [rgb565, BitVec.toNat_or, BitVec.toNat_or, hrTerm, hgTerm, hbTerm, Nat.or_assoc, ← hlow,
    ← Nat.two_pow_add_eq_or_of_lt (by omega)]
  omega

/-- A byte whose low `k` bits a mask finds zero is a multiple of `2 ^ k`. -/
theorem toNat_mod_of_and_low_eq_zero {x m : Byte} {k : Nat} (hm : m.toNat = 2 ^ k - 1) (h : x &&& m = 0) :
    x.toNat % 2 ^ k = 0 := by
  rw [← Nat.and_two_pow_sub_one_eq_mod, ← hm, ← BitVec.toNat_and, h]
  rfl

theorem rgb565_masked (r g b : Byte) : rgb565 (r &&& 0xF8) (g &&& 0xFC) (b &&& 0xF8) = rgb565 r g b := by
  apply BitVec.eq_of_toNat_eq
  rw [rgb565_toNat, rgb565_toNat, toNat_and_F8, toNat_and_F8, toNat_and_FC]
  omega

/-- The three fields of an RGB565 value, as numbers (41_palette_reducer.md R110). -/
theorem rgb565_fields_toNat (r g b : Byte) :
    ((rgb565 r g b).extractLsb' 11 5).toNat = r.toNat / 8 ∧
      ((rgb565 r g b).extractLsb' 5 6).toNat = g.toNat / 4 ∧
      ((rgb565 r g b).extractLsb' 0 5).toNat = b.toNat / 8 := by
  have hr := r.isLt
  have hg := g.isLt
  have hb := b.isLt
  simp only [BitVec.extractLsb'_toNat, rgb565_toNat, Nat.shiftRight_eq_div_pow]
  omega

/-- A component whose low bits are zero is its field shifted back (41_palette_reducer.md R114). -/
theorem eq_setWidth_shiftLeft_of_aligned {n k : Nat} {x : Byte} {f : BitVec n} (hf : f.toNat = x.toNat / 2 ^ k)
    (h : x.toNat % 2 ^ k = 0) : x = f.setWidth 8 <<< k := by
  have hx : x.toNat / 2 ^ k * 2 ^ k = x.toNat := Nat.div_mul_cancel (Nat.dvd_of_mod_eq_zero h)
  have hlt : x.toNat / 2 ^ k < 2 ^ 8 := lt_of_le_of_lt (Nat.div_le_self _ _) x.isLt
  apply BitVec.eq_of_toNat_eq
  rw [BitVec.toNat_shiftLeft, BitVec.toNat_setWidth, hf, Nat.mod_eq_of_lt hlt, Nat.shiftLeft_eq, hx,
    Nat.mod_eq_of_lt x.isLt]

/-- Settles O14: the value depends on the truncated components alone, and its fields are the quotients of the
components. -/
theorem rgb565Idempotent : Obligations.Rgb565Idempotent := by
  refine ⟨rgb565_masked, fun r g b hr hg hb => ?readBack⟩
  case readBack =>
    obtain ⟨hrField, hgField, hbField⟩ := rgb565_fields_toNat r g b
    exact ⟨eq_setWidth_shiftLeft_of_aligned hrField (toNat_mod_of_and_low_eq_zero rfl hr),
      eq_setWidth_shiftLeft_of_aligned hgField (toNat_mod_of_and_low_eq_zero rfl hg),
      eq_setWidth_shiftLeft_of_aligned hbField (toNat_mod_of_and_low_eq_zero rfl hb)⟩

/-! ## The palette block as the host reads it -/

theorem outBytes_two (s : State) (a : Nat) : outBytes s a 2 = [outByte s a, outByte s (a + 1)] := by
  simp [outBytes, List.range_succ]

theorem commit_paletteBytes_outLen (s : State) : (commit (paletteBytes s) s).outLen = 32 := by
  simp

theorem resultBytes_commit_paletteBytes (s : State) : resultBytes (commit (paletteBytes s) s) = paletteBytes s :=
  resultBytes_commit _ s (by rw [paletteBytes_length]; norm_num)

/-- After REDPAL the two bytes of OUT at `2*i` are palette slot `i` (30_encoding.md R78). -/
theorem outBytes_commit_paletteBytes (s : State) (i : Fin 16) :
    outBytes (commit (paletteBytes s) s) (2 * i.val) 2 = slotBytes s i := by
  have hlen : (paletteBytes s).length < 2 ^ 32 := by rw [paletteBytes_length]; norm_num
  refine List.ext_getElem (by simp [outBytes]) fun k _ hk => ?_
  simp only [outBytes, List.getElem_map, List.getElem_range]
  rw [outByte_commit _ s _ hlen, paletteBytes_slot s i k (by simpa using hk), List.getElem?_eq_getElem hk,
    Option.getD_some]

/-- A read of slot `i` gives the number its two bytes stand for (20_memory.md R52). -/
theorem memRead_commit_paletteBytes (s : State) (i : Fin 16) :
    memRead (commit (paletteBytes s) s) (2 * i.val) 2 = leValue (slotBytes s i) := by
  rw [memRead, outBytes_commit_paletteBytes]

theorem leValue_slotBytes_used {s : State} {i : Fin 16} (h : i.val < min 16 (palLenOf s)) :
    leValue (slotBytes s i) = (reduceEntry (palAt s i)).toNat := by
  rw [slotBytes, if_pos h, leValue_leBytes]
  exact Nat.mod_eq_of_lt (reduceEntry (palAt s i)).isLt

theorem leValue_slotBytes_unused {s : State} {i : Fin 16} (h : ¬ i.val < min 16 (palLenOf s)) :
    leValue (slotBytes s i) = 0 := by
  rw [slotBytes_unused h]
  rfl

/-- Settles O15: OUT holds the slots of the palette block, and a slot is the entry's bytes or padding. -/
theorem redpalWritesPalette : Obligations.RedpalWritesPalette := by
  intro s
  refine ⟨commit (paletteBytes s) s, exec_redpal s, ?status, commit_paletteBytes_outLen s, fun i => ?slot⟩
  case status => exact commit_status (paletteBytes s) s
  case slot =>
    split_ifs with h
    · rw [memRead_commit_paletteBytes, leValue_slotBytes_used h, reduceEntry]
    · have hslot := outBytes_commit_paletteBytes s i
      rw [outBytes_two, slotBytes_unused h] at hslot
      simpa using hslot

/-! ## What the palette block depends on -/

/-- The palette block depends on the entries in use alone (41_palette_reducer.md R112). -/
theorem paletteBytes_congr {s t : State} (hn : min 16 (palLenOf t) = min 16 (palLenOf s))
    (hp : ∀ i : Fin 16, i.val < min 16 (palLenOf s) → palAt t i = palAt s i) : paletteBytes t = paletteBytes s := by
  refine List.flatMap_congr fun i _ => ?_
  simp only [slotBytes, hn]
  split_ifs with h
  · rw [hp i h]
  · rfl

/-- With PAL_LEN 0 every slot is padding (41_palette_reducer.md R112). -/
theorem paletteBytes_of_palLen_zero {s : State} (h : s.palLen = 0) : paletteBytes s = List.replicate 32 0x00 := by
  refine List.eq_replicate_iff.mpr ⟨paletteBytes_length s, fun b hb => ?_⟩
  obtain ⟨i, -, hi⟩ := List.mem_flatMap.mp hb
  rw [slotBytes_unused (by simp [palLenOf, h])] at hi
  simpa using hi

/-- Settles O16: both results are palette blocks, which agree where the entries in use agree. -/
theorem redpalPadsUnusedSlots : Obligations.RedpalPadsUnusedSlots := by
  intro s s' hlen hpal
  refine ⟨_, _, exec_redpal s, exec_redpal s', ?_⟩
  simp only [resultBytes_commit_paletteBytes, memRead_commit_paletteBytes]
  refine ⟨paletteBytes_length s, fun i hi => ?padding, ?same, paletteBytes_of_palLen_zero⟩
  case padding => exact leValue_slotBytes_unused (Nat.not_lt.mpr hi)
  case same =>
    refine paletteBytes_congr (by rw [palLenOf, palLenOf, hlen]) fun i hi => hpal i ?_
    exact lt_of_lt_of_le hi (min_le_right _ _)

/-- Settles O17: from 16 up `min(16, PAL_LEN)` is 16, and no entry depends on PAL_LEN. -/
theorem redpalUsesFirstSixteen : Obligations.RedpalUsesFirstSixteen := by
  intro s hlen
  refine ⟨_, _, exec_redpal s, exec_redpal { s with palLen := 16 }, rfl, rfl, ?outLen, ?result⟩
  case outLen => rw [commit_paletteBytes_outLen, commit_paletteBytes_outLen]
  case result =>
    rw [resultBytes_commit_paletteBytes, resultBytes_commit_paletteBytes]
    refine paletteBytes_congr ?_ fun _ _ => rfl
    calc min 16 (palLenOf s) = 16 := min_eq_left hlen
      _ = min 16 (palLenOf { s with palLen := 16 }) := rfl

end Sys2Proof.Machine

/-! PROOFS. Family 42_pixel_packer.md: the function `pack` (R120), the outcome of PACKPX (R122 to R125), the order of its
bytes (R121) and its lengths (R126). -/

namespace Sys2Proof.Machine

/-! ## The nibbles of a byte (42_pixel_packer.md R120) -/

theorem toNat_highNibble (b : Byte) : (b.extractLsb' 4 4).toNat = b.toNat / 16 := by
  have hb := b.isLt
  rw [BitVec.extractLsb'_toNat, Nat.shiftRight_eq_div_pow]
  omega

theorem toNat_lowNibble (b : Byte) : (b.extractLsb' 0 4).toNat = b.toNat % 16 := by
  rw [BitVec.extractLsb'_toNat, Nat.shiftRight_zero]

/-- Settles O18: the nibbles are the quotient and the remainder by 16, and `pack` puts them together again. -/
theorem packIsBijection : Obligations.PackIsBijection := by
  refine ⟨fun p1 p2 h1 h2 => ?nibbles, fun b => ?surjective⟩
  case nibbles =>
    have hpack := packByte_toNat p1 p2 h1 h2
    refine ⟨hpack, ?_, ?_⟩
    · rw [toNat_highNibble, hpack]
      omega
    · rw [toNat_lowNibble, hpack]
      omega
  case surjective =>
    apply BitVec.eq_of_toNat_eq
    rw [packByte_toNat _ _ (Nat.le_of_lt_succ (BitVec.isLt _)) (Nat.le_of_lt_succ (BitVec.isLt _)), toNat_highNibble,
      toNat_lowNibble, Nat.div_add_mod]

/-! ## PACKPX, one lemma per exit (42_pixel_packer.md R122) -/

theorem exec_packpx_of_odd {s : State} (h : widthOdd s = true) : exec .packpx s = .next (raise .oddWidth s) := by
  rw [exec_packpx, if_pos h]

theorem exec_packpx_of_outOfRange {s : State} (he : widthOdd s = false) (hr : pixelOutOfRange s = true) :
    exec .packpx s = .next (raise .pixelRange s) := by
  rw [exec_packpx, if_neg (Bool.eq_false_iff.mp he), if_pos hr]

theorem exec_packpx_of_inRange {s : State} (he : widthOdd s = false) (hp : PixelsInRange s) :
    exec .packpx s = .next (commit (packedPixels s) s) := by
  rw [exec_packpx, if_neg (Bool.eq_false_iff.mp he), if_neg (Bool.eq_false_iff.mp (pixelOutOfRange_false hp))]

/-! ## The packed pixels as the host reads them -/

/-- OUT_LEN holds the packed length whole (00_scope.md R11). -/
theorem toNat_outLen_commit_packedPixels (s : State) :
    (commit (packedPixels s) s).outLen.toNat = (packedPixels s).length := by
  rw [commit_outLen, BitVec.toNat_ofNat, Nat.mod_eq_of_lt (packedPixels_lt s)]

/-- After PACKPX the byte of pair `c` of row `y` is OUT byte `y*(w/2) + c` (42_pixel_packer.md R121). -/
theorem outByte_commit_packedPixels_pair (s : State) {y c : Nat} (hy : y < heightOf s) (hc : c < widthOf s / 2) :
    outByte (commit (packedPixels s) s) (y * (widthOf s / 2) + c) =
      packByte (pixAt s (2 * c) y) (pixAt s (2 * c + 1) y) := by
  rw [outByte_commit _ s _ (packedPixels_lt s), packedPixels_pair s y c hy hc, Option.getD_some]

/-- Settles O19: an exit of the check chain per clause, and in the last one both columns of a pair lie in the rectangle. -/
theorem packpxOutcome : Obligations.PackpxOutcome := by
  intro s
  refine ⟨fun hodd => ?odd, fun heven hout => ?outOfRange, fun heven hin => ?packed⟩
  case odd => exact ⟨_, exec_packpx_of_odd hodd, rfl, rfl, outUnspecified_raise _ s⟩
  case outOfRange =>
    exact ⟨_, exec_packpx_of_outOfRange heven ((pixelOutOfRange_iff s).mpr hout), rfl, rfl, outUnspecified_raise _ s⟩
  case packed =>
    refine ⟨_, exec_packpx_of_inRange heven hin, ?length, rfl, fun y c hy hc => ?pair⟩
    case length => exact (toNat_outLen_commit_packedPixels s).trans (packedPixels_length s (widthOf_even heven))
    case pair =>
      have hleft := hin (2 * c) y (by omega) hy
      have hright := hin (2 * c + 1) y (by omega) hy
      exact (congrArg BitVec.toNat (outByte_commit_packedPixels_pair s hy hc)).trans (packByte_toNat _ _ hleft hright)

/-- Settles O20: byte `k` is byte `y*(w/2) + c` with `y` and `c` the quotient and the remainder of `k` by `w/2`. -/
theorem packedByteOrder : Obligations.PackedByteOrder := by
  intro s heven hin
  refine ⟨_, exec_packpx_of_inRange heven hin, fun k hk => ?_⟩
  have hlen : k < widthOf s / 2 * heightOf s := by
    rw [Nat.mul_comm, ← packedPixels_length_row, packedPixels_length s (widthOf_even heven)]
    exact hk
  have hrow : k / (widthOf s / 2) < heightOf s := Nat.div_lt_of_lt_mul hlen
  have hpair : k % (widthOf s / 2) < widthOf s / 2 := Nat.mod_lt k (Nat.pos_of_lt_mul_right hlen)
  have hbyte := outByte_commit_packedPixels_pair s hrow hpair
  rw [Nat.div_add_mod'] at hbyte
  exact ⟨hrow, hbyte⟩

/-! ## Lengths (42_pixel_packer.md R126) -/

/-- After a success the result is there to be read, empty or not (42_pixel_packer.md R126). -/
theorem resultReady_commit (buf : List Byte) (s : State) : resultReady (commit buf s) = true := by
  rw [resultReady, commit_status]
  decide

/-- An image with no column or no row has no index out of range. -/
theorem pixelsInRange_of_empty {s : State} (h : widthOf s = 0 ∨ heightOf s = 0) : PixelsInRange s := by
  intro x y hx hy
  omega

/-- An image with no column or no row packs to nothing. -/
theorem packedPixels_of_empty {s : State} (h : widthOf s = 0 ∨ heightOf s = 0) : packedPixels s = [] := by
  rw [← List.length_eq_zero_iff, packedPixels_length_row]
  rcases h with hw | hh
  · rw [hw, Nat.zero_div, Nat.mul_zero]
  · rw [hh, Nat.zero_mul]

/-- Settles O21: a success passed the width check and committed the packed pixels, and of an empty image these are none. -/
theorem packpxLengths : Obligations.PackpxLengths := by
  refine ⟨fun s t hexec hstatus => ?success, fun s hempty => ?empty⟩
  case success =>
    obtain ⟨hodd, -, rfl⟩ := packpx_success hexec hstatus
    have heven := widthOf_even hodd
    rw [toNat_outLen_commit_packedPixels]
    exact ⟨heven, packedPixels_length s heven, packedPixels_length_row s, packedPixels_length_le s⟩
  case empty =>
    have hodd : widthOdd s = false := by
      rw [Bool.eq_false_iff, Ne, widthOdd_iff, widthOf]
      omega
    have hnone : widthOf s = 0 ∨ heightOf s = 0 := hempty.imp_right And.right
    refine ⟨_, exec_packpx_of_inRange hodd (pixelsInRange_of_empty hnone), ?length, rfl, resultReady_commit _ s⟩
    case length =>
      rw [commit_outLen, packedPixels_of_empty hnone]
      rfl

end Sys2Proof.Machine

/-! PROOFS. Family 43_image_encoder.md: the outcome of ENCODE (R135), the cause of its palette overflow (R137), its lengths
(R139) and the zero dimensions (R141). -/

namespace Sys2Proof.Machine

/-! ## ENCODE, one lemma per exit (43_image_encoder.md R135) -/

theorem paletteOverflows_false {s : State} (hn : palLenOf s ≤ 16) (hu : (usedSet s).card ≤ 16) :
    paletteOverflows s = false := by
  rw [Bool.eq_false_iff, Ne, paletteOverflows_iff]
  omega

/-- Indices of at most 15 take at most 16 values (43_image_encoder.md R136). -/
theorem usedSet_card_le_of_inRange {s : State} (hp : PixelsInRange s) : (usedSet s).card ≤ 16 :=
  usedSet_card_le s 16 fun x y hx hy => Nat.lt_succ_of_le (hp x y hx hy)

theorem exec_encode_of_overflow {s : State} (h : paletteOverflows s = true) :
    exec .encode s = .next (raise .paletteOverflow s) := by
  rw [exec_encode, if_pos h]

theorem exec_encode_of_odd {s : State} (hov : paletteOverflows s = false) (hodd : widthOdd s = true) :
    exec .encode s = .next (raise .oddWidth s) := by
  rw [exec_encode, if_neg (Bool.eq_false_iff.mp hov), if_pos hodd]

theorem exec_encode_of_outOfRange {s : State} (hov : paletteOverflows s = false) (heven : widthOdd s = false)
    (hout : pixelOutOfRange s = true) : exec .encode s = .next (raise .pixelRange s) := by
  rw [exec_encode, if_neg (Bool.eq_false_iff.mp hov), if_neg (Bool.eq_false_iff.mp heven), if_pos hout]

/-- An image in range cannot use too many values, so of the overflow test only PAL_LEN is left. -/
theorem exec_encode_of_inRange {s : State} (hn : palLenOf s ≤ 16) (heven : widthOdd s = false) (hp : PixelsInRange s) :
    exec .encode s = .next (commit (encodedImage s) s) := by
  have hov := paletteOverflows_false hn (usedSet_card_le_of_inRange hp)
  rw [exec_encode, if_neg (Bool.eq_false_iff.mp hov), if_neg (Bool.eq_false_iff.mp heven),
    if_neg (Bool.eq_false_iff.mp (pixelOutOfRange_false hp))]

/-! ## The encoded image as the host reads it (20_memory.md R60) -/

/-- OUT_LEN holds the length of the encoded image whole (43_image_encoder.md R139). -/
theorem toNat_outLen_commit_encodedImage (s : State) :
    (commit (encodedImage s) s).outLen.toNat = 44 + (packedPixels s).length := by
  rw [commit_outLen, BitVec.toNat_ofNat, Nat.mod_eq_of_lt (encodedImage_lt s), encodedImage_length]

theorem resultBytes_commit_encodedImage (s : State) : resultBytes (commit (encodedImage s) s) = encodedImage s :=
  resultBytes_commit _ s (encodedImage_lt s)

theorem outByte_commit_encodedImage (s : State) {a : Nat} {b : Byte} (h : (encodedImage s)[a]? = some b) :
    outByte (commit (encodedImage s) s) a = b := by
  rw [outByte_commit _ s a (encodedImage_lt s), h, Option.getD_some]

/-- Bytes of OUT that the encoded image holds in a row are read as that row. -/
theorem outBytes_commit_encodedImage (s : State) {a : Nat} {bs : List Byte}
    (h : ∀ k, k < bs.length → (encodedImage s)[a + k]? = bs[k]?) :
    outBytes (commit (encodedImage s) s) a bs.length = bs := by
  refine List.ext_getElem (by simp [outBytes]) fun k _ hk => ?_
  simp only [outBytes, List.getElem_map, List.getElem_range]
  exact outByte_commit_encodedImage s ((h k hk).trans (List.getElem?_eq_getElem hk))

/-- A field of `n` bytes at offset `a` of the header is read back as its value (30_encoding.md R76). -/
theorem memRead_commit_encodedImage_header (s : State) {a n v : Nat}
    (hfield : ((headerBytes s).drop a).take n = leBytes n v) (ha : a + n ≤ 12) (hv : v < 256 ^ n) :
    memRead (commit (encodedImage s) s) a n = v := by
  have hbytes : outBytes (commit (encodedImage s) s) a (leBytes n v).length = leBytes n v := by
    refine outBytes_commit_encodedImage s fun k hk => ?_
    rw [leBytes_length] at hk
    rw [encodedImage_header s (a + k) (by omega), ← hfield, List.getElem?_take_of_lt hk, List.getElem?_drop]
  rw [leBytes_length] at hbytes
  rw [memRead, hbytes, leValue_leBytes, Nat.mod_eq_of_lt hv]

/-- After ENCODE palette slot `i` stands at OUT bytes `12 + 2*i` and `13 + 2*i` (30_encoding.md R78). -/
theorem memRead_commit_encodedImage_slot (s : State) (i : Fin 16) :
    memRead (commit (encodedImage s) s) (12 + 2 * i.val) 2 = leValue (slotBytes s i) := by
  have hbytes : outBytes (commit (encodedImage s) s) (12 + 2 * i.val) (slotBytes s i).length = slotBytes s i := by
    refine outBytes_commit_encodedImage s fun k hk => ?_
    rw [slotBytes_length] at hk
    rw [Nat.add_assoc, encodedImage_palette s _ (by omega), paletteBytes_slot s i k hk]
  rw [slotBytes_length] at hbytes
  rw [memRead, hbytes]

/-- After ENCODE the byte of pair `c` of row `y` is OUT byte `44 + y*(w/2) + c` (42_pixel_packer.md R121). -/
theorem outByte_commit_encodedImage_pair (s : State) {y c : Nat} (hy : y < heightOf s) (hc : c < widthOf s / 2) :
    outByte (commit (encodedImage s) s) (44 + y * (widthOf s / 2) + c) =
      packByte (pixAt s (2 * c) y) (pixAt s (2 * c + 1) y) := by
  refine outByte_commit_encodedImage s ?_
  rw [Nat.add_assoc, encodedImage_pixels, packedPixels_pair s y c hy hc]

/-- Settles O23: an exit of the check chain per clause, and in the last one every part of the image is read at its offset. -/
theorem encodeOutcome : Obligations.EncodeOutcome := by
  intro s
  refine ⟨fun hover => ?overflow, fun hn hu =>
    ⟨fun hodd => ?odd, fun heven hout => ?outOfRange, fun heven hin => ?encoded⟩⟩
  case overflow =>
    exact ⟨_, exec_encode_of_overflow ((paletteOverflows_iff s).mpr hover), rfl, rfl, outUnspecified_raise _ s⟩
  case odd => exact ⟨_, exec_encode_of_odd (paletteOverflows_false hn hu) hodd, rfl, rfl, outUnspecified_raise _ s⟩
  case outOfRange =>
    exact ⟨_, exec_encode_of_outOfRange (paletteOverflows_false hn hu) heven ((pixelOutOfRange_iff s).mpr hout), rfl, rfl,
      outUnspecified_raise _ s⟩
  case encoded =>
    refine ⟨_, exec_encode_of_inRange hn heven hin, ?length, rfl, ?tag, ?flags, ?colorCount, ?width, ?height, ?stride,
      fun i => ?slot, fun y c hy hc => ?pair⟩
    case tag => exact outByte_commit_encodedImage s rfl
    case flags => exact outByte_commit_encodedImage s rfl
    case colorCount => exact memRead_commit_encodedImage_header s rfl (by norm_num) (by norm_num)
    case width => exact memRead_commit_encodedImage_header s rfl (by norm_num) (widthOf_lt s)
    case height => exact memRead_commit_encodedImage_header s rfl (by norm_num) (heightOf_lt s)
    case stride => exact memRead_commit_encodedImage_header s rfl (by norm_num) (by norm_num)
    case length =>
      rw [toNat_outLen_commit_encodedImage, packedPixels_length s (widthOf_even heven)]
      rfl
    case slot =>
      rw [memRead_commit_encodedImage_slot]
      split_ifs with hi
      · exact leValue_slotBytes_used (lt_min i.isLt hi)
      · exact leValue_slotBytes_unused fun h => hi (lt_of_lt_of_le h (min_le_right _ _))
    case pair =>
      have hleft := hin (2 * c) y (by omega) hy
      have hright := hin (2 * c + 1) y (by omega) hy
      exact (congrArg BitVec.toNat (outByte_commit_encodedImage_pair s hy hc)).trans (packByte_toNat _ _ hleft hright)

/-! ## The palette overflow (43_image_encoder.md R137) -/

/-- A command that reports the palette overflow is ENCODE, and its overflow test applied. -/
theorem paletteOverflows_of_status {i : Instr} {s t : State} (h : exec i s = .next t)
    (hstatus : t.status = statusError .paletteOverflow) : i = .encode ∧ paletteOverflows s = true := by
  have hodd : statusError .oddWidth ≠ statusError .paletteOverflow := by decide
  have hrange : statusError .pixelRange ≠ statusError .paletteOverflow := by decide
  have hsuccess : statusSuccess ≠ statusError .paletteOverflow := by decide
  cases i with
  | bldhdr => cases h; exact absurd hstatus hsuccess
  | redpal => cases h; exact absurd hstatus hsuccess
  | packpx =>
    rw [exec_packpx] at h
    cases h
    split_ifs at hstatus
    · exact absurd hstatus hodd
    · exact absurd hstatus hrange
    · exact absurd hstatus hsuccess
  | encode =>
    rw [exec_encode] at h
    cases h
    split_ifs at hstatus with hover
    · exact ⟨rfl, hover⟩
    · exact absurd hstatus hodd
    · exact absurd hstatus hrange
    · exact absurd hstatus hsuccess

/-- Settles O24: only the overflow exit of ENCODE reports 0x33, and it is taken exactly when the overflow test applies. -/
theorem paletteOverflowCause : Obligations.PaletteOverflowCause := by
  refine fun s => ⟨Iff.trans ⟨?report, fun hover => ?raised⟩ (paletteOverflows_iff s), fun i t h hstatus => ?only⟩
  case report =>
    rintro ⟨t, h, hstatus⟩
    exact (paletteOverflows_of_status h hstatus).2
  case raised => exact ⟨_, exec_encode_of_overflow hover, rfl⟩
  case only => exact (paletteOverflows_of_status h hstatus).1

/-! ## Lengths and zero dimensions (43_image_encoder.md R139, R141) -/

/-- Settles O27: a success passed the width check and committed header, palette and packed pixels. -/
theorem encodeLengths : Obligations.EncodeLengths := by
  intro s t hexec hstatus
  obtain ⟨-, hodd, -, rfl⟩ := encode_success hexec hstatus
  have hlen : (packedPixels s).length = s.width.toNat * s.height.toNat / 2 := packedPixels_length s (widthOf_even hodd)
  have hmax := packedPixels_length_le s
  rw [toNat_outLen_commit_encodedImage, resultBytes_commit_encodedImage, encodedImage_length]
  omega

/-- With no packed pixel the encoded image is header and palette alone (43_image_encoder.md R141). -/
theorem encodedImage_of_empty {s : State} (h : widthOf s = 0 ∨ heightOf s = 0) :
    encodedImage s = headerBytes s ++ paletteBytes s := by
  rw [encodedImage, packedPixels_of_empty h, List.append_nil]

/-- Settles O29: an image with no cell passes the range and the use check, whatever its width; the width check is left. -/
theorem encodeZeroDimensions : Obligations.EncodeZeroDimensions := by
  refine ⟨fun s hn hempty => ?encoded, fun s hn hodd hheight => ?odd⟩
  case encoded =>
    have heven : widthOdd s = false := by
      rw [Bool.eq_false_iff, Ne, widthOdd_iff, widthOf]
      omega
    have hnone : widthOf s = 0 ∨ heightOf s = 0 := hempty.imp_right And.right
    refine ⟨_, _, _, exec_encode_of_inRange hn heven (pixelsInRange_of_empty hnone), exec_bldhdr s, exec_redpal s, rfl,
      ?length, ?result⟩
    case length => simp [packedPixels_of_empty hnone]
    case result =>
      rw [resultBytes_commit_encodedImage, resultBytes_commit_headerBytes, resultBytes_commit_paletteBytes,
        encodedImage_of_empty hnone]
  case odd =>
    have hin : PixelsInRange s := pixelsInRange_of_empty (.inr hheight)
    exact ⟨_, exec_encode_of_odd (paletteOverflows_false hn (usedSet_card_le_of_inRange hin)) ((widthOdd_iff s).mpr hodd),
      rfl, rfl⟩

end Sys2Proof.Machine

/-! PROOFS. Family 60_exceptions.md: the two exits of a command (R152, R153) and the reserved words (R157). -/

namespace Sys2Proof.Machine

/-- Every error sets DONE and ERR in STATUS, whatever its code (60_exceptions.md R152). -/
theorem statusError_flags (e : CommandError) :
    statusDone (statusError e) = true ∧ statusErr (statusError e) = true := by
  cases e <;> decide

/-- Settles O34: DONE, ERR and the code are those of the error's STATUS value, and with OUT_LEN 0 no byte is specified. -/
theorem raiseReportsErrorOnly : Obligations.RaiseReportsErrorOnly := by
  intro e s
  obtain ⟨hdone, herr⟩ := statusError_flags e
  refine ⟨raise_outLen e s, hdone, herr, sameInputs_raise e s, outUnspecified_raise e s, ?code⟩
  case code => cases e <;> rfl

/-- OUT_LEN holds the length of a committed sequence whole (60_exceptions.md R153). -/
theorem toNat_outLen_commit (buf : List Byte) (s : State) (hlen : buf.length < 2 ^ 32) :
    (commit buf s).outLen.toNat = buf.length := by
  rw [commit_outLen, BitVec.toNat_ofNat, Nat.mod_eq_of_lt hlen]

/-- Settles O38: the committed bytes are the ones read back, and OUT_LEN does not wrap. -/
theorem commitLeavesResult : Obligations.CommitLeavesResult := by
  intro buf s hlen
  exact ⟨resultBytes_commit buf s hlen, toNat_outLen_commit buf s hlen, commit_status buf s, sameInputs_commit buf s⟩

/-- Settles O10: a CMD write past the chain of commands ends in `raise`, whose effect is known in every state. -/
theorem reservedWordRaisesIllegalCommand : Obligations.ReservedWordRaisesIllegalCommand := by
  intro s w h1 h2 h3 h4
  have hserve := cmdWriteOutcome s w
  rw [if_neg h1, if_neg h2, if_neg h3, if_neg h4] at hserve
  exact ⟨_, hserve, raise_outLen _ s, raise_status .illegalCommand s, sameInputs_raise _ s, outUnspecified_raise _ s⟩

end Sys2Proof.Machine

/-! PROOFS. Family 70_reset_and_hazards.md: every command terminates (R184). -/

namespace Sys2Proof.Machine

/-- Success sets DONE and not ERR (60_exceptions.md R153). -/
theorem statusSuccess_flags : statusDone statusSuccess = true ∧ statusErr statusSuccess = false := by
  decide

/-- Settles O35: a command ends in `commit` or in `raise`, and both set DONE. -/
theorem commandsTerminate : Obligations.CommandsTerminate := by
  intro i s
  rcases exec_cases i s with ⟨buf, -, hexec⟩ | ⟨e, -, hexec⟩
  · exact ⟨commit buf s, hexec, statusSuccess_flags.1⟩
  · exact ⟨raise e s, hexec, (statusError_flags e).1⟩

end Sys2Proof.Machine

/-! PROOFS. Family other, the step: the order in which accesses are served, what a step leaves of the outputs, the
invariant (10_state.md R25 to R29) and reset (70_reset_and_hazards.md R175). -/

namespace Sys2Proof.Machine

/-! ## The CSR map (20_memory.md R55, R59) -/

/-- A register is found at its own offset alone (20_memory.md R59). -/
theorem csrReg?_eq_some_iff (o : BitVec 8) (r : CsrReg) : csrReg? o = some r ↔ csrOffset r = o := by
  constructor
  · intro h
    unfold csrReg? at h
    split_ifs at h with h0 h1 h2 h3 h4 h5 hpal <;> cases h
    · exact h0.symm
    · exact h1.symm
    · exact h2.symm
    · exact h3.symm
    · exact h4.symm
    · exact h5.symm
    · apply BitVec.eq_of_toNat_eq
      simp only [csrOffset, BitVec.toNat_ofNat]
      omega
  · rintro rfl
    exact csrReg?_offset r

/-- Settles O41: the offsets by evaluation, and a register is found at its own offset alone. -/
theorem csrMap : Obligations.CsrMap := by
  refine ⟨rfl, rfl, rfl, rfl, rfl, rfl, fun i => ?entry, csrReg?_eq_some_iff⟩
  case entry =>
    simp only [csrOffset, BitVec.toNat_ofNat]
    omega

/-- An access has a target exactly when it is 32 bits wide and at the target's offset (20_memory.md R55). -/
theorem csrTarget?_eq_some_iff (z : AccessSize) (o : BitVec 8) (r : CsrReg) :
    csrTarget? z o = some r ↔ z = .word ∧ csrOffset r = o := by
  unfold csrTarget?
  split_ifs with hz
  · simp [hz, csrReg?_eq_some_iff]
  · simp [hz]

/-! ## The order of accesses (20_memory.md R63) -/

/-- Serving an access moves neither the queue nor the draw counter (log entries 1 and 4). -/
theorem served_keeps_queue {s t : State} {a : HostAccess} (h : Served s a t) :
    t.pending = s.pending ∧ t.draws = s.draws := by
  cases h <;> exact ⟨rfl, rfl⟩

/-- Settles O5: an idle step by definition, and otherwise the access served keeps the queue that the step left. -/
theorem stepServesAccessesInOrder : Obligations.StepServesAccessesInOrder := by
  refine ⟨fun s hidle => ?idle, fun s a rest hp => ⟨step_cons hp, fun t ht => ?kept⟩⟩
  case idle => simp only [step, hidle]
  case kept =>
    rw [step_cons hp] at ht
    exact served_keeps_queue (serve_cases ht)

/-- The word that a row of the table puts into the queue decodes to the row's command. -/
theorem decode_tableCommandWord {w : Nat} {i : Instr} (h : decodeTableWord 32 w = some i) :
    decode (tableCommandWord 32 w) = .ok i := by
  have hlt : w % 2 ^ 32 < 2 ^ 32 := Nat.mod_lt _ (by norm_num)
  have hbytes : tableBytes 32 w = leBytes 4 (tableCommandWord 32 w).toNat ++ [] := by
    rw [tableBytes, tableCommandWord, BitVec.toNat_ofNat, Nat.mod_mod, List.append_nil]
  rw [decodeTableWord, if_pos hlt, hbytes, decodeBytes_leBytes] at h
  cases hd : decode (tableCommandWord 32 w) with
  | ok j => simpa [hd] using h
  | error e => simp [hd] at h

/-- Settles O4: the step runs the word, and the word is the command's. -/
theorem stepRunsDecodedCommand : Obligations.StepRunsDecodedCommand := by
  have hrun : ∀ (s : State) (w : Word) (rest : List HostAccess) (i : Instr), s.pending = commandAccess w :: rest →
      decode w = .ok i → step s = exec i (beginAccess rest s) := by
    intro s w rest i hp hd
    rw [step_command hp]
    simp only [runCommandWord, hd]
  refine ⟨hrun, fun s w i hi => ?table⟩
  case table => exact hrun (s.withFetchWord 32 w) _ _ i rfl (decode_tableCommandWord hi)

/-- A well-formed register access and the read of that register after it, as two steps. -/
theorem step_write_then_read {s t : State} {r : CsrReg} {d : Word} {rest : List HostAccess}
    (hp : s.pending = wrAccess r d :: .csrRead .word (csrOffset r) :: rest)
    (hw : csrWrite r d (beginAccess (.csrRead .word (csrOffset r) :: rest) s) = .next t) :
    step s = .next t ∧ step t = .next (answerRead (csrRead (beginAccess rest t) r) (beginAccess rest t)) := by
  have hserve := serve_wrAccess r d (beginAccess (.csrRead .word (csrOffset r) :: rest) s)
  rw [hw] at hserve
  have hqueue : t.pending = .csrRead .word (csrOffset r) :: rest := (served_keeps_queue (serve_cases hserve)).1
  exact ⟨(step_cons hp).trans hserve, (step_cons hqueue).trans (serve_csrRead r _)⟩

/-! ## Who writes the outputs (20_memory.md R58) -/

/-- The outputs after one access: a CMD write commits or raises, reset clears them, nothing else touches them. -/
theorem served_outputs {s t : State} {a : HostAccess} (h : Served s a t) :
    ((∃ w, a = commandAccess w) ∧
        ((∃ buf : List Byte, buf.length ≤ maxResultLen ∧ t = commit buf s) ∨ ∃ e, t = raise e s)) ∨
      (a = .reset ∧ t = applyReset s) ∨ SameOutputs s t := by
  cases h with
  | commits z o w buf hr hl =>
    obtain ⟨rfl, rfl⟩ := (csrTarget?_eq_some_iff z o .cmd).1 hr
    exact .inl ⟨⟨w, rfl⟩, .inl ⟨buf, hl, rfl⟩⟩
  | raises z o w e hr =>
    obtain ⟨rfl, rfl⟩ := (csrTarget?_eq_some_iff z o .cmd).1 hr
    exact .inl ⟨⟨w, rfl⟩, .inr ⟨e, rfl⟩⟩
  | reset => exact .inr (.inl ⟨rfl, rfl⟩)
  | _ => exact .inr (.inr ⟨rfl, rfl, rfl⟩)

/-- Settles O49: of the cases that one access has, only a CMD write and reset touch an output. -/
theorem onlyCommandsAndResetWriteOutputs : Obligations.OnlyCommandsAndResetWriteOutputs := by
  intro s t a rest hp hstep hcmd hreset
  rw [step_cons hp] at hstep
  rcases served_outputs (serve_cases hstep) with ⟨⟨w, hw⟩, -⟩ | ⟨hr, -⟩ | hsame
  · exact absurd hw (hcmd w)
  · exact absurd hr hreset
  · exact hsame

/-! ## The invariant -/

/-- The part of the invariant about PIX and `IDX_W` (10_state.md R28). -/
def PixInv (s : State) : Prop :=
  Memory.wf s.pix ∧ (∀ c ∈ s.pix, c.1 < 2 ^ 32 ∧ c.2 < 2 ^ s.idxW) ∧ 4 ≤ s.idxW

/-- The part of the invariant about STATUS, OUT_LEN and OUT (10_state.md R25, R26, R29). -/
def OutInv (s : State) : Prop :=
  Memory.wf s.out ∧ s.out.map Prod.fst = List.range s.outLen.toNat ∧ s.outLen.toNat ≤ maxResultLen ∧
    legalStatus s.status = true ∧ (s.status ≠ 0x01 → s.outLen = 0)

theorem inv_iff (s : State) : State.Inv s ↔ PixInv s ∧ OutInv s := by
  simp only [State.Inv, PixInv, OutInv]
  tauto

theorem legalStatus_statusError (e : CommandError) : legalStatus (statusError e) = true := by
  cases e <;> decide

theorem outInv_congr {s t : State} (h : SameOutputs s t) (hs : OutInv s) : OutInv t := by
  obtain ⟨hstatus, hlen, hout⟩ := h
  unfold OutInv
  rwa [hstatus, hlen, hout]

/-- A committed result is listed exactly, with STATUS 0x01 (60_exceptions.md R153). -/
theorem outInv_commit {buf : List Byte} (h : buf.length ≤ maxResultLen) (s : State) : OutInv (commit buf s) := by
  have hlen : (commit buf s).outLen.toNat = buf.length :=
    toNat_outLen_commit buf s (lt_of_le_of_lt h maxResultLen_lt)
  refine ⟨storeBytes_wf [] 0 buf List.Pairwise.nil, ?_, hlen.trans_le h, rfl, fun hne => absurd rfl hne⟩
  rw [hlen]
  exact storeBytes_nil_keys buf

/-- With no result and no byte listed only STATUS is left to check. -/
theorem outInv_of_empty {s : State} (hout : s.out = []) (hlen : s.outLen = 0) (hstatus : legalStatus s.status = true) :
    OutInv s := by
  refine ⟨?_, ?_, ?_, hstatus, fun _ => hlen⟩ <;> simp [hout, hlen]

theorem outInv_raise (e : CommandError) (s : State) : OutInv (raise e s) :=
  outInv_of_empty rfl rfl (legalStatus_statusError e)

theorem outInv_applyReset (s : State) : OutInv (applyReset s) :=
  outInv_of_empty rfl rfl rfl

theorem served_keeps_outInv {s t : State} {a : HostAccess} (h : Served s a t) (hs : OutInv s) : OutInv t := by
  rcases served_outputs h with ⟨-, ⟨buf, hlen, rfl⟩ | ⟨e, rfl⟩⟩ | ⟨-, rfl⟩ | hsame
  · exact outInv_commit hlen s
  · exact outInv_raise e s
  · exact outInv_applyReset s
  · exact outInv_congr hsame hs

theorem pixInv_of_empty {s : State} (hpix : s.pix = []) (hidx : 4 ≤ s.idxW) : PixInv s := by
  refine ⟨?_, ?_, hidx⟩ <;> simp [hpix]

/-- Every pair of 16-bit numbers has its address inside the space (10_state.md R28). -/
theorem pixKey_lt (x y : Half) : pixKey x.toNat y.toNat < 2 ^ 32 := by
  have hx := x.isLt
  have hy := y.isLt
  unfold pixKey
  omega

/-- A fitting value at an address of the space keeps PIX canonical. -/
theorem pixInv_writePix {s : State} (hs : PixInv s) (x y : Half) {v : Nat} (hv : v < 2 ^ s.idxW) :
    PixInv (writePix x y v s) := by
  obtain ⟨hwf, hcells, hidx⟩ := hs
  refine ⟨putCell_wf hwf _ _, fun c hc => ?_, hidx⟩
  rcases mem_putCell hc with rfl | hmem
  · exact ⟨pixKey_lt x y, hv⟩
  · exact hcells c hmem

theorem pixInv_applyReset {s : State} (hs : PixInv s) : PixInv (applyReset s) := by
  obtain ⟨-, -, hidx⟩ := hs
  exact pixInv_of_empty rfl hidx

/-- PIX is written by the PIX write and reset alone (20_memory.md R58). -/
theorem served_keeps_pixInv {s t : State} {a : HostAccess} (h : Served s a t) (hs : PixInv s) : PixInv t := by
  cases h with
  | pix x y v hv => exact pixInv_writePix hs x y hv
  | reset => exact pixInv_applyReset hs
  | _ => exact hs

/-- Settles O3: an idle step changes nothing, and one access keeps both parts of the invariant. -/
theorem stepKeepsInvariant : Obligations.StepKeepsInvariant := by
  intro s t hs hstep
  rcases step_cases hstep with ⟨-, rfl⟩ | ⟨a, rest, -, hserved⟩
  · exact hs
  · obtain ⟨hpix, hout⟩ := (inv_iff s).1 hs
    exact (inv_iff t).2 ⟨served_keeps_pixInv hserved hpix, served_keeps_outInv hserved hout⟩

/-- Settles O2: nothing is listed after reset, in a block of any width. -/
theorem resetMeetsInvariant : Obligations.ResetMeetsInvariant := by
  have hblock : ∀ w : Nat, 4 ≤ w → State.Inv (resetBlock w) := fun w hw =>
    (inv_iff _).2 ⟨pixInv_of_empty rfl hw, outInv_of_empty rfl rfl rfl⟩
  exact ⟨hblock 8 (by norm_num), hblock⟩

theorem mem_of_cellAt {α : Type} {m : List (Nat × α)} {a : Nat} {v : α} (h : cellAt m a = some v) : (a, v) ∈ m := by
  induction m with
  | nil => cases h
  | cons c m ih =>
    obtain ⟨k, u⟩ := c
    simp only [cellAt] at h
    split_ifs at h with hk
    · cases h
      exact hk ▸ List.mem_cons_self
    · exact List.mem_cons_of_mem _ (ih h)

/-- With canonical PIX every pixel read has `IDX_W` bits, of a written cell or free (10_state.md R28). -/
theorem pixAt_lt {s : State} (hs : PixInv s) (x y : Nat) : pixAt s x y < 2 ^ s.idxW := by
  obtain ⟨-, hcells, -⟩ := hs
  cases hcell : cellAt s.pix (pixKey x y) with
  | none =>
    rw [pixAt_of_not_written hcell]
    exact Nat.mod_lt _ (by positivity)
  | some v =>
    rw [pixAt, hcell, Option.getD_some]
    exact (hcells _ (mem_of_cellAt hcell)).2

/-- Settles O47: the bound on one read bounds the set of values read. -/
theorem indexWidthBoundsValues : Obligations.IndexWidthBoundsValues := by
  intro s hs
  obtain ⟨hpix, -⟩ := (inv_iff s).1 hs
  refine ⟨pixAt_lt hpix, usedSet_card_le s _ fun x y _ _ => pixAt_lt hpix x y, ?_⟩
  obtain ⟨-, -, hidx⟩ := hpix
  calc 16 = 2 ^ 4 := by norm_num
    _ ≤ 2 ^ s.idxW := Nat.pow_le_pow_right (by norm_num) hidx

/-! ## Reset (70_reset_and_hazards.md R175) and the parameters (00_scope.md R7) -/

theorem step_reset {s : State} {rest : List HostAccess} (h : s.pending = .reset :: rest) :
    step s = .next (applyReset (beginAccess rest s)) :=
  step_cons h

/-- Settles O53: the reset values, with no PAL_IN entry and no PIX cell written and no result. -/
theorem resetEvent : Obligations.ResetEvent := by
  intro s rest hp
  refine ⟨_, step_reset hp, rfl, rfl, rfl, rfl, rfl, outUnspecified_of_outLen_zero rfl, fun d i => ?pal, fun d x y => ?pix⟩
  case pal =>
    exact palAt_of_not_written (s := { applyReset (beginAccess rest s) with draws := d }) BitVec.getLsbD_zero
  case pix => exact pixAt_of_not_written (s := { applyReset (beginAccess rest s) with draws := d }) rfl

/-- A CMD write always answers a next state (70_reset_and_hazards.md R184). -/
theorem runCommandWord_next (w : Word) (s : State) : ∃ t, runCommandWord w s = .next t := by
  rcases runCommandWord_cases w s with ⟨buf, -, h⟩ | ⟨e, h⟩
  · exact ⟨_, h⟩
  · exact ⟨_, h⟩

/-- Settles O54: the command answers a state with reset pending, and reset leaves the same of every state. -/
theorem resetAbandonsCommand : Obligations.ResetAbandonsCommand := by
  intro s s' w rest hp hp'
  obtain ⟨t, hrun⟩ := runCommandWord_next w (beginAccess (.reset :: rest) s)
  have hqueue : t.pending = .reset :: rest :=
    (served_keeps_queue (serve_cases ((serve_commandAccess w _).trans hrun))).1
  exact ⟨t, _, _, (step_command hp).trans hrun, step_reset hqueue, step_reset hp', ⟨rfl, rfl, rfl, rfl, rfl, rfl⟩,
    ⟨rfl, rfl, rfl⟩⟩

/-- Settles O56: an idle step changes nothing, and no access changes `IDX_W`. -/
theorem indexWidthIsFixed : Obligations.IndexWidthIsFixed := by
  intro s t h
  rcases step_cases h with ⟨-, rfl⟩ | ⟨a, rest, -, hserved⟩
  · rfl
  · exact (served_idxW hserved).trans (beginAccess_idxW rest s)

/-- Settles O55: the platform puts the block's next state in its place of the list. -/
theorem unitsAreIndependent : Obligations.UnitsAreIndependent := by
  intro p k s t hk hstep
  have hlt : k < p.units.length := (List.getElem?_eq_some_iff.1 hk).1
  refine ⟨{ units := p.units.set k t, draws := t.draws }, ?_, List.length_set, List.getElem?_set_self hlt,
    fun j hj => List.getElem?_set_ne hj.symm⟩
  simp only [stepUnit, hk, hstep]

end Sys2Proof.Machine

/-! PROOFS. Family other, the codes: command words and their bytes (30_encoding.md R70 to R74), the laws of BLDHDR
(40_header_builder.md R102) and the fields of RGB565 (41_palette_reducer.md R110). -/

namespace Sys2Proof.Machine

/-! ## Command words -/

/-- Settles O6: the decoder on eight literal words. -/
theorem commandWordSamples : Obligations.CommandWordSamples := by
  unfold Obligations.CommandWordSamples
  decide

/-- The two fields of a word allow a command exactly when the whole word is 1 to 4 (30_encoding.md R70). -/
theorem command_fields_iff (w : Word) :
    (w.extractLsb' 8 24 = 0 ∧ 1 ≤ (w.extractLsb' 0 8).toNat ∧ (w.extractLsb' 0 8).toNat ≤ 4) ↔
      1 ≤ w.toNat ∧ w.toNat ≤ 4 := by
  have hw := w.isLt
  simp only [BitVec.toNat_eq, BitVec.extractLsb'_toNat, Nat.shiftRight_eq_div_pow, BitVec.ofNat_eq_ofNat,
    BitVec.toNat_ofNat]
  omega

/-- The four commands have the words 1 to 4 (30_encoding.md R71). -/
theorem exists_eq_encode_iff (w : Word) : (∃ i, w = encode i) ↔ 1 ≤ w.toNat ∧ w.toNat ≤ 4 := by
  constructor
  · rintro ⟨i, rfl⟩
    cases i <;> decide
  · rintro ⟨hlo, hhi⟩
    have hword : w = BitVec.ofNat 32 w.toNat := by simp
    rw [hword]
    interval_cases w.toNat
    · exact ⟨.bldhdr, rfl⟩
    · exact ⟨.redpal, rfl⟩
    · exact ⟨.packpx, rfl⟩
    · exact ⟨.encode, rfl⟩

/-- Settles O7: the decodable words are those of the commands, and the decoder rejects a word for one reason only. -/
theorem reservedWordsAreAllOthers : Obligations.ReservedWordsAreAllOthers := by
  refine fun w => ⟨?command, fun hnone => ?reserved, fun herr i hi => ?rejected⟩
  case command => simp only [decode_ok_iff, exists_eq_encode_iff, command_fields_iff]
  case reserved =>
    rcases decode_cases w with ⟨i, hi⟩ | herr
    · exact absurd hi (hnone i)
    · exact herr
  case rejected => exact nomatch herr.symm.trans hi

/-- Four bytes are the little-endian bytes of the word that the decoder reads from them (log entry 19). -/
theorem eq_leBytes_word (b0 b1 b2 b3 : Byte) :
    [b0, b1, b2, b3] = leBytes 4 (BitVec.ofNat 32 (leValue [b0, b1, b2, b3])).toNat := by
  have hlt : leValue [b0, b1, b2, b3] < 2 ^ 32 :=
    lt_of_lt_of_eq (leValue_lt [b0, b1, b2, b3]) (by norm_num)
  rw [BitVec.toNat_ofNat, Nat.mod_eq_of_lt hlt]
  exact (leBytes_leValue [b0, b1, b2, b3]).symm

/-- What decodes is a command word's bytes with the rest behind them. -/
theorem decodeBytes_ok {bytes rest : List Byte} {i : Instr} (h : decodeBytes bytes = .ok (i, rest)) :
    bytes = encodeBytes i ++ rest := by
  match bytes, h with
  | b0 :: b1 :: b2 :: b3 :: tail, h =>
    have hbytes : b0 :: b1 :: b2 :: b3 :: tail = leBytes 4 (BitVec.ofNat 32 (leValue [b0, b1, b2, b3])).toNat ++ tail := by
      rw [← eq_leBytes_word]
      rfl
    rw [hbytes, decodeBytes_leBytes] at h
    cases hd : decode (BitVec.ofNat 32 (leValue [b0, b1, b2, b3])) with
    | ok j =>
      simp only [hd, Except.ok.injEq, Prod.mk.injEq] at h
      obtain ⟨rfl, rfl⟩ := h
      rw [hbytes, (decode_ok_iff _ j).1 hd, encodeBytes]
    | error e => simp [hd] at h

/-- Settles O8: the bytes of a command decode to it, and what decodes is such bytes. -/
theorem decodeEncodeAgree : Obligations.DecodeEncodeAgree := by
  refine ⟨fun i rest _ => ?decoded, fun bytes rest i h => decodeBytes_ok h⟩
  case decoded => rw [encodeBytes, decodeBytes_leBytes, (decode_ok_iff _ i).2 rfl]

/-! ## The laws of BLDHDR -/

/-- Two 16-bit values with the same bytes are the same. -/
theorem half_ext {v w : Half} (hlo : v.extractLsb' 0 8 = w.extractLsb' 0 8) (hhi : v.extractLsb' 8 8 = w.extractLsb' 8 8) :
    v = w := by
  apply BitVec.eq_of_toNat_eq
  rw [← half_bytes v, ← half_bytes w, hlo, hhi]

/-- The header depends on the two dimensions and determines them (40_header_builder.md R102). -/
theorem headerBytes_eq_iff (s s' : State) :
    headerBytes s' = headerBytes s ↔ s'.width = s.width ∧ s'.height = s.height := by
  simp only [headerBytes_eq]
  constructor
  · intro h
    simp only [List.cons.injEq] at h
    obtain ⟨-, -, -, -, hwlo, hwhi, hhlo, hhhi, -⟩ := h
    exact ⟨half_ext hwlo hwhi, half_ext hhlo hhhi⟩
  · rintro ⟨hw, hh⟩
    rw [hw, hh]

/-- Two committed bytes in a row are read as the 16-bit value they stand for (20_memory.md R52). -/
theorem memRead_commit_two {buf : List Byte} (s : State) {a : Nat} {v : Half} (hlen : buf.length < 2 ^ 32)
    (hlo : buf[a]? = some (v.extractLsb' 0 8)) (hhi : buf[a + 1]? = some (v.extractLsb' 8 8)) :
    memRead (commit buf s) a 2 = v.toNat := by
  rw [memRead_two, outByte_commit buf s a hlen, outByte_commit buf s (a + 1) hlen, hlo, hhi]
  exact half_bytes v

/-- Settles O12: the header byte by byte, with the dimensions as two 16-bit fields. -/
theorem bldhdrLaws : Obligations.BldhdrLaws := by
  intro s
  have hlen : (headerBytes s).length < 2 ^ 32 := by rw [headerBytes_length]; norm_num
  refine ⟨_, exec_bldhdr s, ?_⟩
  rw [resultBytes_commit_headerBytes]
  refine ⟨headerBytes_length s, ?first, ?last, ?width, ?height, fun s' => ⟨_, exec_bldhdr s', ?same⟩⟩
  case first => rw [headerBytes_eq]; rfl
  case last => rw [headerBytes_eq]; rfl
  case width => exact memRead_commit_two s hlen (by rw [headerBytes_eq]; rfl) (by rw [headerBytes_eq]; rfl)
  case height => exact memRead_commit_two s hlen (by rw [headerBytes_eq]; rfl) (by rw [headerBytes_eq]; rfl)
  case same => rw [resultBytes_commit_headerBytes, headerBytes_eq_iff]

/-! ## The fields of RGB565 -/

/-- The top bits of a byte, from bit `k` up, are its quotient by `2 ^ k`. -/
theorem toNat_topBits (x : Byte) (k n : Nat) (h : 8 ≤ k + n) : (x.extractLsb' k n).toNat = x.toNat / 2 ^ k := by
  rw [BitVec.extractLsb'_toNat, Nat.shiftRight_eq_div_pow]
  refine Nat.mod_eq_of_lt (Nat.div_lt_of_lt_mul ?_)
  calc x.toNat < 2 ^ 8 := x.isLt
    _ ≤ 2 ^ (k + n) := Nat.pow_le_pow_right (by norm_num) h
    _ = 2 ^ k * 2 ^ n := pow_add 2 k n

/-- A concatenation as a number. -/
theorem toNat_append_eq_add {m n : Nat} (x : BitVec m) (y : BitVec n) : (x ++ y).toNat = 2 ^ n * x.toNat + y.toNat := by
  rw [BitVec.toNat_append, Nat.shiftLeft_eq, Nat.mul_comm, Nat.two_pow_add_eq_or_of_lt y.isLt]

theorem rgb565_eq_append (r g b : Byte) :
    rgb565 r g b = r.extractLsb' 3 5 ++ g.extractLsb' 2 6 ++ b.extractLsb' 3 5 := by
  apply BitVec.eq_of_toNat_eq
  rw [rgb565_toNat, toNat_append_eq_add, toNat_append_eq_add, toNat_topBits r 3 5 (by norm_num),
    toNat_topBits g 2 6 (by norm_num), toNat_topBits b 3 5 (by norm_num)]
  omega

/-- The fields of the value are the top bits of the components (41_palette_reducer.md R110). -/
theorem rgb565_fields (r g b : Byte) :
    (rgb565 r g b).extractLsb' 11 5 = r.extractLsb' 3 5 ∧ (rgb565 r g b).extractLsb' 5 6 = g.extractLsb' 2 6 ∧
      (rgb565 r g b).extractLsb' 0 5 = b.extractLsb' 3 5 := by
  rw [BitVec.toNat_eq, BitVec.toNat_eq, BitVec.toNat_eq, toNat_topBits r 3 5 (by norm_num),
    toNat_topBits g 2 6 (by norm_num), toNat_topBits b 3 5 (by norm_num)]
  exact rgb565_fields_toNat r g b

/-- The RGB565 value determines its three fields (41_palette_reducer.md R110). -/
theorem rgb565_eq_iff (r g b r' g' b' : Byte) : rgb565 r g b = rgb565 r' g' b' ↔
    r.extractLsb' 3 5 = r'.extractLsb' 3 5 ∧ g.extractLsb' 2 6 = g'.extractLsb' 2 6 ∧
      b.extractLsb' 3 5 = b'.extractLsb' 3 5 := by
  constructor
  · intro h
    obtain ⟨hr, hg, hb⟩ := rgb565_fields r g b
    obtain ⟨hr', hg', hb'⟩ := rgb565_fields r' g' b'
    rw [← hr, ← hg, ← hb, h]
    exact ⟨hr', hg', hb'⟩
  · rintro ⟨hr, hg, hb⟩
    rw [rgb565_eq_append, rgb565_eq_append, hr, hg, hb]

/-- Settles O13: the definition, the concatenation of the three fields, its value, and that it determines the fields. -/
theorem rgb565Fields : Obligations.Rgb565Fields :=
  fun r g b => ⟨rfl, rgb565_eq_append r g b, rgb565_toNat r g b, rgb565_eq_iff r g b⟩

end Sys2Proof.Machine

/-! PROOFS. Family other, the commands: on which part of the state each depends (42_pixel_packer.md R127,
43_image_encoder.md R138, R140; 10_state.md R32, R37), what it leaves (60_exceptions.md R151, R152) and the reference decoder
(42_pixel_packer.md R130). -/

namespace Sys2Proof.Machine

/-! ## What every command leaves -/

theorem sameHostSide_commit (buf : List Byte) (s : State) : SameHostSide s (commit buf s) := by
  simp [SameHostSide]

theorem sameHostSide_raise (e : CommandError) (s : State) : SameHostSide s (raise e s) := by
  simp [SameHostSide]

/-- Settles O33: a command ends in `commit` or in `raise`, and neither touches the host's side. -/
theorem commandsKeepHostSide : Obligations.CommandsKeepHostSide := by
  intro i s t h
  rcases exec_next_cases h with ⟨buf, -, rfl⟩ | ⟨e, -, rfl⟩
  · exact sameHostSide_commit buf s
  · exact sameHostSide_raise e s

/-- Every exit writes STATUS, OUT_LEN and OUT without reading them (10_state.md R32). -/
theorem exec_withOutputs (i : Instr) (s : State) (status outLen : Word) (out : List Host.Cell) :
    exec i { s with status := status, outLen := outLen, out := out } = exec i s := by
  cases i with
  | bldhdr => rfl
  | redpal => rfl
  | packpx => rfl
  | encode => rfl

/-- A state with the inputs and the host side of another differs from it in the outputs at most. -/
theorem eq_withOutputs {s s' : State} (hin : SameInputs s s') (hhost : SameHostSide s s') :
    s' = { s with status := s'.status, outLen := s'.outLen, out := s'.out } := by
  obtain ⟨hwidth, hheight, hpalLen, hpalIn, hpalWritten, hpix⟩ := hin
  obtain ⟨hpending, hlastRead, hdraws, hidxW⟩ := hhost
  rw [← hwidth, ← hheight, ← hpalLen, ← hpalIn, ← hpalWritten, ← hpix, ← hpending, ← hlastRead, ← hdraws, ← hidxW]

/-- Settles O36: the two states differ in the outputs alone, which no command reads. -/
theorem commandsIgnoreEarlierOutcome : Obligations.CommandsIgnoreEarlierOutcome := by
  intro i s s' hin hhost
  rw [eq_withOutputs hin hhost]
  exact exec_withOutputs i s _ _ _

theorem packpx_status {s t : State} (h : exec .packpx s = .next t) :
    t.status = 0x01 ∨ t.status = 0x13 ∨ t.status = 0x23 := by
  rw [exec_packpx] at h
  cases h
  split_ifs
  · exact .inr (.inr rfl)
  · exact .inr (.inl rfl)
  · exact .inl rfl

theorem encode_status {s t : State} (h : exec .encode s = .next t) :
    t.status = 0x01 ∨ t.status = 0x13 ∨ t.status = 0x23 ∨ t.status = 0x33 := by
  rw [exec_encode] at h
  cases h
  split_ifs
  · exact .inr (.inr (.inr rfl))
  · exact .inr (.inr (.inl rfl))
  · exact .inr (.inl rfl)
  · exact .inl rfl

/-- Success has no error code (60_exceptions.md R151). -/
theorem statusErrCode_success : statusErrCode statusSuccess = 0 := by decide

/-- Settles O37: the exits of each command by their STATUS, and ERR tells `commit` from `raise`. -/
theorem statusOfEachCommand : Obligations.StatusOfEachCommand := by
  intro i s t h
  refine ⟨?status, ?code⟩
  case status =>
    cases i with
    | bldhdr => cases h; rfl
    | redpal => cases h; rfl
    | packpx => exact packpx_status h
    | encode => exact encode_status h
  case code =>
    obtain ⟨-, hnoErr⟩ := statusSuccess_flags
    rcases exec_next_cases h with ⟨buf, -, rfl⟩ | ⟨e, -, rfl⟩
    · exact ⟨fun _ => statusErrCode_success, fun herr => absurd (hnoErr.symm.trans herr) Bool.false_ne_true⟩
    · obtain ⟨-, herr⟩ := statusError_flags e
      exact ⟨fun hno => absurd (hno.symm.trans herr) Bool.false_ne_true,
        fun _ => ⟨raise_outLen e s, outUnspecified_raise e s⟩⟩

/-- A byte of a committed result is the same at every draw (20_memory.md R68). -/
theorem outByte_commit_draws {buf : List Byte} (s : State) (hlen : buf.length < 2 ^ 32) {a : Nat} (ha : a < buf.length)
    (d : Nat) : outByte { commit buf s with draws := d } a = outByte (commit buf s) a :=
  (outByte_commit_lt buf { s with draws := d } a hlen ha).trans (outByte_commit_lt buf s a hlen ha).symm

/-- Settles O39: of a committed result every byte is listed, and after an error there is no result. -/
theorem outBeyondLengthIsFree : Obligations.OutBeyondLengthIsFree := by
  refine fun i s t h d a => ⟨fun ha => ?below, fun ha => outByte_beyond _ a ha⟩
  case below =>
    rcases exec_next_cases h with ⟨buf, hbuf, rfl⟩ | ⟨e, -, rfl⟩
    · have hlen : buf.length < 2 ^ 32 := lt_of_le_of_lt hbuf maxResultLen_lt
      rw [toNat_outLen_commit buf s hlen] at ha
      exact outByte_commit_draws s hlen ha d
    · exact absurd ha (Nat.not_lt_zero a)

/-! ## The image a command reads -/

/-- The image rectangle is the same in `s` and `t`: the dimensions, and every cell inside (42_pixel_packer.md R127). -/
def SameImage (s t : State) : Prop :=
  t.width = s.width ∧ t.height = s.height ∧ ∀ x y, x < widthOf s → y < heightOf s → pixAt t x y = pixAt s x y

theorem SameImage.widthOdd_eq {s t : State} (h : SameImage s t) : widthOdd t = widthOdd s := by
  obtain ⟨hw, -, -⟩ := h
  rw [widthOdd, widthOdd, hw]

theorem SameImage.pixelOutOfRange_eq {s t : State} (h : SameImage s t) : pixelOutOfRange t = pixelOutOfRange s := by
  obtain ⟨hw, hh, hp⟩ := h
  rw [pixelOutOfRange, pixelOutOfRange, pixCells_congr hw hh hp]

theorem SameImage.usedValues_eq {s t : State} (h : SameImage s t) : usedValues t = usedValues s := by
  obtain ⟨hw, hh, hp⟩ := h
  rw [usedValues, usedValues, pixCells_congr hw hh hp]

theorem SameImage.packedPixels_eq {s t : State} (h : SameImage s t) (hodd : ¬ widthOdd s = true) :
    packedPixels t = packedPixels s := by
  obtain ⟨hw, hh, hp⟩ := h
  exact packedPixels_congr hw hh hp (widthOf_even (Bool.eq_false_iff.mpr hodd))

theorem SameImage.headerBytes_eq {s t : State} (h : SameImage s t) : headerBytes t = headerBytes s := by
  obtain ⟨hw, hh, -⟩ := h
  exact (headerBytes_eq_iff s t).2 ⟨hw, hh⟩

/-- The exits leave outputs that depend on the result or the error alone. -/
theorem sameOutputs_commit (buf : List Byte) (s t : State) : SameOutputs (commit buf s) (commit buf t) :=
  ⟨rfl, rfl, rfl⟩

theorem sameOutputs_raise (e : CommandError) (s t : State) : SameOutputs (raise e s) (raise e t) :=
  ⟨rfl, rfl, rfl⟩

/-- Settles O22: the two checks and the packed pixels depend on the image alone. -/
theorem packpxReadsImageOnly : Obligations.PackpxReadsImageOnly := by
  intro s s' hw hh hp
  have himage : SameImage s s' := ⟨hw, hh, hp⟩
  refine ⟨_, _, exec_packpx s, exec_packpx s', ?_⟩
  rw [himage.widthOdd_eq, himage.pixelOutOfRange_eq]
  split_ifs with hodd
  · exact sameOutputs_raise _ s s'
  · exact sameOutputs_raise _ s s'
  · rw [himage.packedPixels_eq hodd]
    exact sameOutputs_commit _ s s'

/-! ## Draws and written inputs (10_state.md R37, 70_reset_and_hazards.md R177) -/

theorem palAt_draws {s : State} {i : Fin 16} (h : s.palWritten.getLsbD i = true) (d : Nat) :
    palAt { s with draws := d } i = palAt s i := by
  rw [palAt, palAt, if_pos h, if_pos h]

theorem pixAt_draws {s : State} {x y : Nat} (h : (cellAt s.pix (pixKey x y)).isSome = true) (d : Nat) :
    pixAt { s with draws := d } x y = pixAt s x y := by
  obtain ⟨v, hv⟩ := Option.isSome_iff_exists.1 h
  simp only [pixAt, hv, Option.getD_some]

theorem paletteBytes_draws {s : State} (h : PaletteWritten s) (d : Nat) :
    paletteBytes { s with draws := d } = paletteBytes s :=
  paletteBytes_congr rfl fun i hi => palAt_draws (h i hi) d

/-- A written image is the same image at every draw. -/
theorem sameImage_draws {s : State} (h : PixelsWritten s) (d : Nat) : SameImage s { s with draws := d } :=
  ⟨rfl, rfl, fun x y hx hy => pixAt_draws (h x y hx hy) d⟩

/-- The outcome of command `i` on `s` is the same for every draw (10_state.md R37). -/
def FixedResult (i : Instr) (s : State) : Prop :=
  ∃ t, exec i s = .next t ∧ ∀ d : Nat, exec i { s with draws := d } = .next { t with draws := d }

theorem fixedResult_packpx {s : State} (h : PixelsWritten s) : FixedResult .packpx s := by
  refine ⟨_, exec_packpx s, fun d => ?_⟩
  have himage := sameImage_draws h d
  rw [exec_packpx, himage.widthOdd_eq, himage.pixelOutOfRange_eq]
  split_ifs with hodd
  · rfl
  · rfl
  · rw [himage.packedPixels_eq hodd]
    rfl

theorem fixedResult_redpal {s : State} (h : PaletteWritten s) : FixedResult .redpal s := by
  refine ⟨_, exec_redpal s, fun d => ?_⟩
  rw [exec_redpal, paletteBytes_draws h]
  rfl

theorem SameImage.paletteOverflows_eq {s t : State} (h : SameImage s t) (hn : t.palLen = s.palLen) :
    paletteOverflows t = paletteOverflows s := by
  rw [paletteOverflows, paletteOverflows, h.usedValues_eq, palLenOf, palLenOf, hn]

theorem fixedResult_encode {s : State} (hpal : PaletteWritten s) (hpix : PixelsWritten s) : FixedResult .encode s := by
  refine ⟨_, exec_encode s, fun d => ?_⟩
  have himage := sameImage_draws hpix d
  rw [exec_encode, himage.paletteOverflows_eq rfl, himage.widthOdd_eq, himage.pixelOutOfRange_eq]
  split_ifs with hover hodd
  · rfl
  · rfl
  · rfl
  · rw [encodedImage, himage.headerBytes_eq, paletteBytes_draws hpal, himage.packedPixels_eq hodd]
    rfl

/-- Settles O40: of the inputs BLDHDR reads no cell and no entry, and those the others read are written. -/
theorem writtenInputsFixResult : Obligations.WrittenInputsFixResult := by
  intro i s h
  cases i with
  | bldhdr => exact ⟨_, exec_bldhdr s, fun d => rfl⟩
  | redpal => exact fixedResult_redpal h
  | packpx => exact fixedResult_packpx h
  | encode =>
    obtain ⟨hpal, hpix⟩ := h
    exact fixedResult_encode hpal hpix

/-! ## ENCODE beside the other commands -/

theorem widthOdd_of_even {s : State} (h : widthOf s % 2 = 0) : widthOdd s = false := by
  rw [Bool.eq_false_iff, Ne, widthOdd_iff]
  omega

theorem pixelsInRange_of_check {s : State} (h : pixelOutOfRange s = false) : PixelsInRange s := by
  intro x y hx hy
  by_contra hgt
  exact Bool.eq_false_iff.mp h ((pixelOutOfRange_iff s).mpr ⟨x, y, hx, hy, Nat.not_le.mp hgt⟩)

/-- More than 16 values do not fit the range 0 to 15 (43_image_encoder.md R136). -/
theorem pixelOutOfRange_of_card {s : State} (h : 16 < (usedSet s).card) : pixelOutOfRange s = true := by
  by_contra hnone
  have hfew := usedSet_card_le_of_inRange (pixelsInRange_of_check (Bool.eq_false_iff.mpr hnone))
  omega

/-- Settles O25: ENCODE finds the overflow first, and PACKPX the index above 15 that it forces. -/
theorem overflowForcesRange : Obligations.OverflowForcesRange := by
  intro s hcard hwidth
  exact ⟨_, _, exec_encode_of_overflow ((paletteOverflows_iff s).mpr (.inr hcard)), rfl,
    exec_packpx_of_outOfRange (widthOdd_of_even hwidth) (pixelOutOfRange_of_card hcard), rfl⟩

theorem resultBytes_commit_packedPixels (s : State) : resultBytes (commit (packedPixels s) s) = packedPixels s :=
  resultBytes_commit _ s (packedPixels_lt s)

/-- Settles O26: behind its overflow check ENCODE has the checks of PACKPX, and its result is the three in a row. -/
theorem encodeComposesCommands : Obligations.EncodeComposesCommands := by
  intro s
  refine ⟨_, _, _, _, exec_bldhdr s, exec_redpal s, exec_packpx s, exec_encode s, fun hsuccess => ?success,
    fun hn hu => ?sameStatus⟩
  case success =>
    obtain ⟨-, hodd, hrange, hencode⟩ := encode_success (exec_encode s) hsuccess
    rw [hencode, if_neg (Bool.eq_false_iff.mp hodd), if_neg (Bool.eq_false_iff.mp hrange),
      resultBytes_commit_encodedImage, resultBytes_commit_headerBytes, resultBytes_commit_paletteBytes,
      resultBytes_commit_packedPixels]
    exact ⟨rfl, rfl, headerBytes_length s, paletteBytes_length s, packedPixels_length s (widthOf_even hodd)⟩
  case sameStatus =>
    rw [if_neg (Bool.eq_false_iff.mp (paletteOverflows_false hn hu))]
    split_ifs
    · rfl
    · rfl
    · rfl

/-- An OUT byte of the encoded image outside its palette block depends on the image and the draw alone. -/
theorem outByte_encodedImage_congr {s t : State} (himage : SameImage s t) (hodd : ¬ widthOdd s = true)
    (hd : t.draws = s.draws) {a : Nat} (ha : a < 12 ∨ 44 ≤ a) :
    outByte (commit (encodedImage t) t) a = outByte (commit (encodedImage s) s) a := by
  have hbyte : (encodedImage t)[a]? = (encodedImage s)[a]? := by
    rcases ha with hlo | hhi
    · rw [encodedImage_header t a hlo, encodedImage_header s a hlo, himage.headerBytes_eq]
    · obtain ⟨k, rfl⟩ := Nat.exists_eq_add_of_le hhi
      rw [encodedImage_pixels, encodedImage_pixels, himage.packedPixels_eq hodd]
  rw [outByte_commit _ t a (encodedImage_lt t), outByte_commit _ s a (encodedImage_lt s), hbyte, hd]

/-- Settles O28: with both PAL_LEN within 16 the checks agree, and PAL_LEN reaches the palette block alone. -/
theorem encodeIgnoresPaletteLength : Obligations.EncodeIgnoresPaletteLength := by
  intro s n hs hn
  have himage : SameImage s { s with palLen := n } := ⟨rfl, rfl, fun _ _ _ _ => rfl⟩
  have hover : paletteOverflows { s with palLen := n } = paletteOverflows s := by
    have hs' : ¬ 16 < palLenOf s := Nat.not_lt.mpr hs
    have hn' : ¬ 16 < palLenOf { s with palLen := n } := Nat.not_lt.mpr hn
    rw [paletteOverflows, paletteOverflows, himage.usedValues_eq, decide_eq_false hs', decide_eq_false hn']
  refine ⟨_, _, exec_encode s, exec_encode { s with palLen := n }, ?_⟩
  rw [hover, himage.widthOdd_eq, himage.pixelOutOfRange_eq]
  split_ifs with _ hodd
  · exact ⟨rfl, rfl, fun _ _ => rfl⟩
  · exact ⟨rfl, rfl, fun _ _ => rfl⟩
  · exact ⟨rfl, rfl, fun _ _ => rfl⟩
  · refine ⟨rfl, ?length, fun a ha => outByte_encodedImage_congr himage hodd rfl ha⟩
    case length =>
      rw [commit_outLen, commit_outLen, encodedImage_length, encodedImage_length, himage.packedPixels_eq hodd]

/-! ## The reference decoder (42_pixel_packer.md R129, R130) -/

theorem byteOf_eq {e : List Byte} {k : Nat} {b : Byte} (h : e[k]? = some b) : byteOf e k = b := by
  rw [byteOf, List.getD_eq_getElem?_getD, h, Option.getD_some]

/-- The decoder's two nibbles undo `pack` (42_pixel_packer.md R120). -/
theorem unpackByte_packByte {p1 p2 : Nat} (h1 : p1 ≤ 15) (h2 : p2 ≤ 15) : unpackByte (packByte p1 p2) = [p1, p2] := by
  obtain ⟨hpack, -⟩ := packIsBijection
  obtain ⟨-, hhigh, hlow⟩ := hpack p1 p2 h1 h2
  rw [unpackByte, hhigh, hlow]

/-- Taking the columns in pairs takes every column of an even width once. -/
theorem flatMap_pairs {α : Type} (f : Nat → α) (n : Nat) :
    (List.range n).flatMap (fun c => [f (2 * c), f (2 * c + 1)]) = (List.range (2 * n)).map f := by
  induction n with
  | zero => rfl
  | succ n ih =>
    rw [Nat.mul_succ, List.range_succ, List.range_succ, List.range_succ, List.flatMap_append, ih]
    simp

/-- The decoder reads the rows of the source image back from the packed pixels. -/
theorem unpackGrid_encodedImage {s : State} (heven : widthOdd s = false) (hin : PixelsInRange s) :
    unpackGrid (encodedImage s) 44 (widthOf s) (heightOf s) = sourceGrid s := by
  refine List.map_congr_left fun y hy => ?_
  have hrow : ∀ c ∈ List.range (widthOf s / 2),
      unpackByte (byteOf (encodedImage s) (44 + y * (widthOf s / 2) + c)) = [pixAt s (2 * c) y, pixAt s (2 * c + 1) y] := by
    intro c hc
    rw [List.mem_range] at hy hc
    have hbyte := packedPixels_pair s y c hy hc
    rw [← encodedImage_pixels, ← Nat.add_assoc] at hbyte
    rw [byteOf_eq hbyte, unpackByte_packByte (hin _ _ (by omega) hy) (hin _ _ (by omega) hy)]
  rw [List.flatMap_congr hrow, flatMap_pairs (fun x => pixAt s x y), pixRow,
    Nat.mul_div_cancel' (Nat.dvd_of_mod_eq_zero (widthOf_even heven))]

/-- Two bytes of the header that hold a 16-bit field are decoded as that field. -/
theorem byteOf_encodedImage_field (s : State) {k : Nat} {v : Half} (hk : k + 1 < 12)
    (hlo : (headerBytes s)[k]? = some (v.extractLsb' 0 8)) (hhi : (headerBytes s)[k + 1]? = some (v.extractLsb' 8 8)) :
    (byteOf (encodedImage s) k).toNat + 256 * (byteOf (encodedImage s) (k + 1)).toNat = v.toNat := by
  rw [byteOf_eq ((encodedImage_header s k (by omega)).trans hlo), byteOf_eq ((encodedImage_header s _ hk).trans hhi),
    half_bytes]

/-- `unpack` of an encoded image of an even width and indices in range (42_pixel_packer.md R130). -/
theorem unpack_encodedImage {s : State} (heven : widthOdd s = false) (hin : PixelsInRange s) :
    unpack (encodedImage s) = (widthOf s, heightOf s, sourceGrid s) := by
  have hw : (byteOf (encodedImage s) 4).toNat + 256 * (byteOf (encodedImage s) 5).toNat = widthOf s :=
    byteOf_encodedImage_field s (by norm_num) (by rw [headerBytes_eq]; rfl) (by rw [headerBytes_eq]; rfl)
  have hh : (byteOf (encodedImage s) 6).toNat + 256 * (byteOf (encodedImage s) 7).toNat = heightOf s :=
    byteOf_encodedImage_field s (by norm_num) (by rw [headerBytes_eq]; rfl) (by rw [headerBytes_eq]; rfl)
  simp only [unpack, hw, hh, unpackGrid_encodedImage heven hin]

/-- Settles O30: a success passed the checks that the decoder needs. -/
theorem encodeRoundTrip : Obligations.EncodeRoundTrip := by
  intro s t hexec hstatus
  obtain ⟨-, heven, hrange, rfl⟩ := encode_success hexec hstatus
  rw [resultBytes_commit_encodedImage]
  exact unpack_encodedImage heven (pixelsInRange_of_check hrange)

/-- Settles O31: a valid image passes every check of ENCODE, so its grid comes back. -/
theorem validImageEncodes : Obligations.ValidImageEncodes := by
  rintro s ⟨-, hwidth, -, hn, hvalid⟩
  have heven : widthOdd s = false := widthOdd_of_even hwidth
  have hin : PixelsInRange s := fun x y hx hy => (hvalid x y hx hy).2
  refine ⟨_, exec_encode_of_inRange hn heven hin, rfl, resultReady_commit _ s, ?grid, fun row hrow v hv => ?below⟩
  case grid => rw [resultBytes_commit_encodedImage, unpack_encodedImage heven hin]
  case below =>
    obtain ⟨y, hy, rfl⟩ := List.mem_map.mp hrow
    obtain ⟨x, hx, rfl⟩ := List.mem_map.mp hv
    exact (hvalid x y (List.mem_range.mp hx) (List.mem_range.mp hy)).1

end Sys2Proof.Machine

/-! PROOFS. Family other, the host accesses: the CSR accesses that have a move (20_memory.md R55), what a write stores and the
next read returns (10_state.md R21 to R28), and the bytes of OUT (20_memory.md R52, R54). -/

namespace Sys2Proof.Machine

/-! ## CSR accesses (20_memory.md R55) -/

/-- The offsets that name no register (20_memory.md R55, R59). -/
theorem csrReg?_eq_none_iff (o : BitVec 8) :
    csrReg? o = none ↔ o.toNat % 4 ≠ 0 ∨ (0x18 ≤ o.toNat ∧ o.toNat ≤ 0x3F) ∨ 0x80 ≤ o.toNat := by
  unfold csrReg?
  split_ifs with h0 h1 h2 h3 h4 h5 hpal
  · subst h0; decide
  · subst h1; decide
  · subst h2; decide
  · subst h3; decide
  · subst h4; decide
  · subst h5; decide
  · exact iff_of_false nofun (by omega)
  · simp only [BitVec.toNat_eq, BitVec.toNat_ofNat] at h0 h1 h2 h3 h4 h5
    exact iff_of_true rfl (by omega)

/-- A CSR access has no target when it is not 32 bits wide or its offset names no register (20_memory.md R55). -/
theorem csrTarget?_eq_none_iff (z : AccessSize) (o : BitVec 8) : csrTarget? z o = none ↔
    z ≠ .word ∨ o.toNat % 4 ≠ 0 ∨ (0x18 ≤ o.toNat ∧ o.toNat ≤ 0x3F) ∨ 0x80 ≤ o.toNat := by
  unfold csrTarget?
  split_ifs with hz
  · rw [csrReg?_eq_none_iff]
    simp [hz]
  · simp [hz]

/-- A write of a register always has a move (20_memory.md R58). -/
theorem csrWrite_next (r : CsrReg) (d : Word) (s : State) : ∃ t, csrWrite r d s = .next t := by
  cases r with
  | cmd => exact runCommandWord_next d s
  | _ => exact ⟨_, rfl⟩

/-- Settles O42: an access without a target is refused, and one with a target is a register's write or read. -/
theorem malformedCsrAccessRefused : Obligations.MalformedCsrAccessRefused := by
  intro s z o d
  split_ifs with hbad <;> rw [← csrTarget?_eq_none_iff] at hbad
  · simp only [serve, hbad, and_self]
  · obtain ⟨r, hr⟩ := Option.ne_none_iff_exists'.1 hbad
    simp only [serve, hr]
    exact ⟨csrWrite_next r d s, ⟨_, rfl⟩⟩

/-! ## Registers read back (10_state.md R21 to R27) -/

/-- The low `k` bits of a word, read back in 32 bits, are the word masked. -/
theorem setWidth_setWidth_eq_and {k : Nat} (d m : Word) (hk : k ≤ 32) (hm : m.toNat = 2 ^ k - 1) :
    (d.setWidth k).setWidth 32 = d &&& m := by
  apply BitVec.eq_of_toNat_eq
  have hlt : d.toNat % 2 ^ k < 2 ^ 32 :=
    lt_of_lt_of_le (Nat.mod_lt _ (by positivity)) (Nat.pow_le_pow_right (by norm_num) hk)
  rw [BitVec.toNat_setWidth, BitVec.toNat_setWidth, BitVec.toNat_and, hm, Nat.and_two_pow_sub_one_eq_mod,
    Nat.mod_eq_of_lt hlt]

/-- A 16-bit register stores bits 15:0 of the data (10_state.md R21). -/
theorem setWidth_eq_lowHalf (d : Word) : d.setWidth 16 = d.extractLsb' 0 16 :=
  BitVec.setWidth_eq_extractLsb' (by norm_num)

theorem lowHalf_readBack (d : Word) : (d.setWidth 16).setWidth 32 = d &&& 0x0000FFFF :=
  setWidth_setWidth_eq_and d _ (by norm_num) rfl

/-- Settles O43: for each register the write stores the low half and the read returns it. -/
theorem operandRegistersReadBack : Obligations.OperandRegistersReadBack := by
  intro s d rest
  rw [← setWidth_eq_lowHalf, ← lowHalf_readBack]
  refine ⟨fun hp => ?width, fun hp => ?height, fun hp => ?palLen⟩
  case width =>
    obtain ⟨hwrite, hread⟩ := step_write_then_read hp rfl
    exact ⟨_, _, hwrite, rfl, hread, rfl⟩
  case height =>
    obtain ⟨hwrite, hread⟩ := step_write_then_read hp rfl
    exact ⟨_, _, hwrite, rfl, hread, rfl⟩
  case palLen =>
    obtain ⟨hwrite, hread⟩ := step_write_then_read hp rfl
    exact ⟨_, _, hwrite, rfl, hread, rfl⟩

/-- An entry just written is read as written (10_state.md R27). -/
theorem palAt_writePal (i : Fin 16) (d : Word) (s : State) : palAt (writePal i d s) i = d.setWidth 24 := by
  have hbit : (writePal i d s).palWritten.getLsbD i = true := by simp
  rw [palAt, if_pos hbit]
  exact Vector.getElem_set_self i.isLt

/-- A write of one entry leaves every other entry as it was (10_state.md R27). -/
theorem writePal_other {i j : Fin 16} (h : j ≠ i) (d : Word) (s : State) :
    (writePal i d s).palWritten.getLsbD j = s.palWritten.getLsbD j ∧ (writePal i d s).palIn[j] = s.palIn[j] := by
  have hij : i.val ≠ j.val := fun heq => h (Fin.ext heq.symm)
  refine ⟨?_, Vector.getElem_set_ne i.isLt j.isLt hij⟩
  simp [hij.symm]

/-- A field below bit 24 is the same in the data and in the entry stored from it (10_state.md R27). -/
theorem extractLsb'_entry (d : Word) {k : Nat} (h : k + 8 ≤ 24) :
    (d.setWidth 24).extractLsb' k 8 = d.extractLsb' k 8 :=
  BitVec.extractLsb'_setWidth_of_le h

/-- Settles O44: the entry holds the three components, the others are untouched, and the read masks the upper byte. -/
theorem paletteEntryReadsBack : Obligations.PaletteEntryReadsBack := by
  intro s i d rest hp
  obtain ⟨hwrite, hread⟩ := step_write_then_read hp rfl
  refine ⟨_, _, hwrite, ?red, ?green, ?blue, fun j hj => writePal_other hj d _, rfl, rfl, rfl, rfl, ⟨rfl, rfl, rfl⟩,
    hread, ?readBack⟩
  case red => rw [palAt_writePal, palR, extractLsb'_entry d (by norm_num)]
  case green => rw [palAt_writePal, palG, extractLsb'_entry d (by norm_num)]
  case blue => rw [palAt_writePal, palB, extractLsb'_entry d (by norm_num)]
  case readBack =>
    have hentry : palAt (beginAccess rest (writePal i d (beginAccess (.csrRead .word (csrOffset (.palIn i)) :: rest) s))) i =
        d.setWidth 24 := palAt_writePal i d (beginAccess rest (beginAccess _ s))
    rw [answerRead_lastRead, csrRead, hentry, setWidth_setWidth_eq_and d 0x00FFFFFF (by norm_num) rfl]

/-! ## PIX writes (10_state.md R28) -/

/-- Pairs of 16-bit numbers have different addresses (10_state.md R28). -/
theorem pixKey_inj {x y x' y' : Half} (h : pixKey x'.toNat y'.toNat = pixKey x.toNat y.toNat) : (x', y') = (x, y) := by
  have hx := x.isLt
  have hx' := x'.isLt
  unfold pixKey at h
  rw [Prod.mk.injEq, BitVec.toNat_eq, BitVec.toNat_eq]
  omega

theorem serve_pixWrite_of_fits {s : State} {v : Nat} (x y : Half) (h : v < 2 ^ s.idxW) :
    serve (.pixWrite x y v) s = .next (writePix x y v s) := by
  simp only [serve, pixFits, decide_eq_true h, if_true]

theorem serve_pixWrite_of_tooWide {s : State} {v : Nat} (x y : Half) (h : 2 ^ s.idxW ≤ v) :
    serve (.pixWrite x y v) s = .refused .pixelValueTooWide := by
  simp only [serve, pixFits, decide_eq_false (Nat.not_lt.mpr h), Bool.false_eq_true, if_false]

theorem pixAt_writePix (x y : Half) (v : Nat) (s : State) : pixAt (writePix x y v s) x.toNat y.toNat = v := by
  rw [pixAt, writePix_pix, cellAt_putCell, if_pos rfl, Option.getD_some]

/-- Settles O45: the write lists the value at its address, and no other pair has that address. -/
theorem pixelWriteStores : Obligations.PixelWriteStores := by
  intro s x y v rest hp hv
  have hfits : v < 2 ^ (beginAccess rest s).idxW := hv
  refine ⟨_, (step_cons hp).trans (serve_pixWrite_of_fits x y hfits), pixAt_writePix x y v _, fun x' y' hne => ?other, rfl⟩
  case other =>
    rw [writePix_pix, cellAt_putCell, if_neg fun h => hne (pixKey_inj h), beginAccess_pix]

/-- Settles O46: the fit is checked on the state in which the access has begun, which has the same `IDX_W`. -/
theorem pixelValueTooWideRefused : Obligations.PixelValueTooWideRefused := by
  intro s x y v rest hp hv
  exact (step_cons hp).trans (serve_pixWrite_of_tooWide (s := beginAccess rest s) x y hv)

/-- A PIX write completes and is read back exactly when the value fits (10_state.md R28, log entry 10). -/
theorem pixWrite_reads_back_iff (s : State) (x y : Half) (v : Nat) :
    (∃ t, serve (.pixWrite x y v) s = .next t ∧ pixAt t x.toNat y.toNat = v) ↔ v < 2 ^ s.idxW := by
  refine ⟨?fits, fun h => ⟨_, serve_pixWrite_of_fits x y h, pixAt_writePix x y v s⟩⟩
  case fits =>
    rintro ⟨t, hserve, -⟩
    by_contra hwide
    rw [serve_pixWrite_of_tooWide x y (Nat.not_lt.mp hwide)] at hserve
    cases hserve

/-- Settles O57: the defaults by definition, the copies of a replicated block, and the fit for widths 8 and 4. -/
theorem parametersAndDefaults : Obligations.ParametersAndDefaults := by
  refine ⟨rfl, rfl, rfl, fun n w => ⟨List.length_replicate, fun u hu => List.eq_of_mem_replicate hu⟩, fun s x y v =>
    ⟨fun hw => ?eight, fun hw => ?four⟩⟩
  case eight =>
    rw [pixWrite_reads_back_iff, hw]
    omega
  case four =>
    rw [pixWrite_reads_back_iff, hw]
    omega

/-! ## Accesses that change nothing of the block (20_memory.md R58) -/

theorem beginAccess_keeps_block (rest : List HostAccess) (s : State) :
    SameInputs s (beginAccess rest s) ∧ SameOutputs s (beginAccess rest s) := by
  simp [SameInputs, SameOutputs]

theorem answerRead_keeps_block (v : Word) (rest : List HostAccess) (s : State) :
    SameInputs s (answerRead v (beginAccess rest s)) ∧ SameOutputs s (answerRead v (beginAccess rest s)) := by
  simp [SameInputs, SameOutputs]

/-- Settles O48: a read answers and the two writes are ignored. -/
theorem readsAndReadOnlyWritesChangeNothing : Obligations.ReadsAndReadOnlyWritesChangeNothing := by
  rintro s a rest hp (⟨r, rfl⟩ | ⟨addr, z, rfl⟩ | ⟨d, rfl⟩ | ⟨d, rfl⟩)
  · exact ⟨_, (step_cons hp).trans (serve_csrRead r _), answerRead_keeps_block _ rest s⟩
  · exact ⟨_, step_cons hp, answerRead_keeps_block _ rest s⟩
  · exact ⟨_, (step_cons hp).trans (serve_wrAccess .status d _), beginAccess_keeps_block rest s⟩
  · exact ⟨_, (step_cons hp).trans (serve_wrAccess .outLen d _), beginAccess_keeps_block rest s⟩

/-- Settles O50: the three offsets are those of CMD, STATUS and OUT_LEN. -/
theorem resultRegistersRead : Obligations.ResultRegistersRead := by
  have hread : ∀ (s : State) (rest : List HostAccess) (r : CsrReg), s.pending = .csrRead .word (csrOffset r) :: rest →
      ∃ t, step s = .next t ∧ t.lastRead = some (csrRead (beginAccess rest s) r) :=
    fun s rest r hp => ⟨_, (step_cons hp).trans (serve_csrRead r _), rfl⟩
  exact fun s rest => ⟨hread s rest .cmd, hread s rest .status, hread s rest .outLen⟩

/-! ## The bytes of OUT (20_memory.md R52, R54) -/

/-- Inside the range of a MemWrite below OUT_LEN a byte of the value is read (20_memory.md R52). -/
theorem outByte_memWrite {s : State} {addr n v k : Nat} (hk : k < n) (hlen : addr + n ≤ s.outLen.toNat) :
    outByte { s with out := memWrite s.out addr n v } (addr + k) = BitVec.ofNat 8 (v / 256 ^ k) := by
  have hin : addr + k < s.outLen.toNat := by omega
  have hrange : addr ≤ addr + k ∧ addr + k < addr + (leBytes n v).length := by
    rw [leBytes_length]
    omega
  rw [outByte, if_pos hin, memWrite, cellAt_storeBytes, if_pos hrange, Nat.add_sub_cancel_left, leBytes_getElem? n v k hk,
    Option.getD_some]

/-- Outside the range of a MemWrite nothing changes (20_memory.md R52). -/
theorem outByte_memWrite_outside {s : State} {addr n v a : Nat} (ha : a < addr ∨ addr + n ≤ a) :
    outByte { s with out := memWrite s.out addr n v } a = outByte s a := by
  have hrange : ¬ (addr ≤ a ∧ a < addr + (leBytes n v).length) := by
    rw [leBytes_length]
    omega
  rw [outByte, outByte, memWrite, cellAt_storeBytes, if_neg hrange]

theorem outBytes_memWrite {s : State} {addr n v : Nat} (hlen : addr + n ≤ s.outLen.toNat) :
    outBytes { s with out := memWrite s.out addr n v } addr n = leBytes n v := by
  refine List.ext_getElem (by simp [outBytes]) fun k _ hk => ?_
  rw [leBytes_length] at hk
  have hbyte := leBytes_getElem? n v k hk
  rw [List.getElem?_eq_getElem (by rwa [leBytes_length]), Option.some.injEq] at hbyte
  simp only [outBytes, List.getElem_map, List.getElem_range, hbyte, outByte_memWrite hk hlen]

/-- Powers of a byte's 256 as powers of two. -/
theorem pow_byte (k : Nat) : 256 ^ k = 2 ^ (8 * k) := (pow_mul 2 8 k).symm

/-- Settles O51: the range of the write holds the bytes of the value, for any number of bytes. -/
theorem memReadAfterMemWrite : Obligations.MemReadAfterMemWrite := by
  intro s addr n v _ hv hlen
  refine ⟨?value, fun k hk => ?byte, fun a ha => outByte_memWrite_outside ha⟩
  case value => rw [memRead, outBytes_memWrite hlen, leValue_leBytes, pow_byte, Nat.mod_eq_of_lt hv]
  case byte => rw [outByte_memWrite hk hlen, BitVec.toNat_ofNat, pow_byte]

theorem outBytes_length (s : State) (addr n : Nat) : (outBytes s addr n).length = n := by
  simp [outBytes]

/-- MemRead of `n` bytes is a number of `n` bytes (20_memory.md R52). -/
theorem memRead_lt (s : State) (addr n : Nat) : memRead s addr n < 256 ^ n :=
  lt_of_lt_of_eq (leValue_lt _) (by rw [outBytes_length])

/-- Byte `k` of what MemRead returns is the byte at `addr + k` (20_memory.md R52). -/
theorem memRead_byte (s : State) {addr n k : Nat} (hk : k < n) :
    memRead s addr n / 256 ^ k % 256 = (outByte s (addr + k)).toNat := by
  have hbytes := leBytes_leValue (outBytes s addr n)
  have hbyte := leBytes_getElem? n (memRead s addr n) k hk
  rw [outBytes_length] at hbytes
  rw [memRead, hbytes, outBytes, List.getElem?_map, List.getElem?_range hk, Option.map_some, Option.some.injEq] at hbyte
  rw [hbyte, BitVec.toNat_ofNat]
  rfl

/-- At most four bytes fit the word that a host read returns (20_memory.md R54). -/
theorem memRead_lt_word (s : State) (addr : Nat) (z : AccessSize) : memRead s addr (sizeBytes z) < 2 ^ 32 := by
  have hsize : sizeBytes z ≤ 4 := by cases z <;> decide
  calc memRead s addr (sizeBytes z) < 256 ^ sizeBytes z := memRead_lt s addr _
    _ ≤ 256 ^ 4 := Nat.pow_le_pow_right (by norm_num) hsize
    _ = 2 ^ 32 := by norm_num

/-- Settles O52: the returned word holds MemRead whole, and with it each byte. -/
theorem outReadAssemblesBytes : Obligations.OutReadAssemblesBytes := by
  intro s addr z rest hp
  have hword : (BitVec.ofNat 32 (memRead (beginAccess rest s) addr.toNat (sizeBytes z))).toNat =
      memRead (beginAccess rest s) addr.toNat (sizeBytes z) := by
    rw [BitVec.toNat_ofNat, Nat.mod_eq_of_lt (memRead_lt_word _ _ z)]
  refine ⟨_, _, step_cons hp, rfl, hword, fun k hk => ?byte⟩
  case byte =>
    rw [hword, ← pow_byte]
    exact memRead_byte (beginAccess rest s) hk

end Sys2Proof.Machine
